-- ==== Sys2Proof/Word.lean ====
section
/-! DEFINITION. The machine word and the register index (spec/00_scope.md R7, R9; spec/10_state.md R21). -/

namespace Sys2Proof

/-- `Word32` of R9: a 32-bit pattern, the unit of registers, memory and encoded instructions. -/
abbrev Word := BitVec 32

/-- The index of a general register. A decoded register field has three bits, so no index outside 0 to 7
can be written down (R21). -/
abbrev RegIndex := Fin 8

end Sys2Proof
end

