-- ==== Sys2Proof/Machine/State.lean ====
section
/-! DEFINITION. The state of the machine (spec/10_state.md R20), the reasons a run or a load can end, and the
state after reset (R31). -/

namespace Sys2Proof.Machine

/-- The fault kinds of spec/60_exceptions.md R161, a closed enumeration without numeric codes (R162). -/
inductive FaultKind where
  /-- The fetch check refused the pc (R101). Raised by a step. -/
  | programCounterOutOfBounds
  /-- The effective address of `lw` or `sw` is outside the memory (R130). Raised by a step. -/
  | memoryOutOfBounds
  /-- Kept in the enumeration, raised by nothing: no word decodes to such an opcode (R152, C6). -/
  | invalidOpcode
  /-- A line of the image text is not one signed 32-bit decimal (R191). Raised by the loader. -/
  | malformedInputWord
  /-- The image text cannot be opened (R191). Raised by the loader. -/
  | fileOpenError
  deriving DecidableEq, Repr

/-- R29: the run status. `halted` and `faulted k` are final. -/
inductive RunStatus where
  | running
  | halted
  | faulted (k : FaultKind)
  deriving DecidableEq, Repr

/-- One listed word of memory: its word index and its value. -/
abbrev Cell := Nat × Word

/-- R40, R41: a sequence of `length` words (`N_MEM`). A word that no cell lists is 0; this is how a word 0 of
the image is held, and no word of the memory is without a value (log 1, log 2). -/
structure Memory where
  length : Nat
  cells : List Cell
  deriving DecidableEq, Repr

/-- The canonical form: addresses strictly rising, no cell holding what an unlisted address reads as, and every
cell inside the memory. Equal memories are then equal data. -/
abbrev Memory.wf (m : Memory) : Prop :=
  m.cells.Pairwise (fun c d => c.1 < d.1) ∧ ∀ c ∈ m.cells, c.2 ≠ 0#32 ∧ c.1 < m.length

/-- R20: the whole state. Nothing else is state (R27, R28, R33, R34). -/
structure State where
  /-- R21: the general registers `x[0]` to `x[7]`. -/
  x : Vector Word 8
  /-- R24: the program counter, an integer word index (D3, log 6). -/
  pc : Int
  /-- R32, R40: the memory and its length `N_MEM`. -/
  mem : Memory
  /-- R29. -/
  status : RunStatus
  /-- R30: the number of retired steps (D6, log 9). -/
  count : Nat
  deriving DecidableEq, Repr

/-- Why a step or a load stops without a next state. The faults of R161 that a STEP raises are not here: they
are a next state whose run status is `faulted k` (R163, log 4). -/
inductive Fault where
  /-- Raised by `step` from a `Halted` state: "No step is defined from `Halted`" (R106). Safe: the spec stops here. -/
  | halted
  /-- Raised by `step` from a `Faulted(k)` state: no step is defined from it (R106). Safe: the spec stops here. -/
  | faulted (k : FaultKind)
  /-- Raised by the loader: `MalformedInputWord`, with the 1-based line (R191, R192). Safe: the spec refuses here
  (D8, log 11). -/
  | malformedInputWord (line : Nat)
  /-- Raised by the loader: `FileOpenError` (R191, R192). Safe: the spec fails here. -/
  | fileOpenError
  deriving DecidableEq, Repr

/-- What the model itself declines. -/
inductive Refusal where
  /-- Raised by an arm of `exec` that has no meaning yet. No arm is one. Safe. -/
  | notModelled (mnemonic : String)
  /-- Raised by the loader: an image of more than 2^31 - 1 words is "refused by the model" (D7, I18). Safe. -/
  | imageTooLong
  deriving DecidableEq, Repr

/-- R31 with the empty image: registers 0, pc 0, `N_MEM` 0, `Running`, count 0. A program reaches the machine
through the loader, which gives the reset state of its image (log 3). -/
def State.reset : State where
  x := Vector.replicate 8 0#32
  pc := 0
  mem := { length := 0, cells := [] }
  status := .running
  count := 0

end Sys2Proof.Machine
end

