-- ==== Sys2Proof/Config.lean ====
section
/-! DEFINITION. What an implementation fixes (spec/00_scope.md R7) and the values the spec leaves open. The host's
`STEP_BUDGET` is an argument of the run functions and not a constant (D11, log 20). -/

namespace Sys2Proof.Config

/-- The bound `N_MEM ≤ 2^31 - 1` (R7, spec/20_memory.md R41, D7, log 10). -/
def maxWords : Nat := 2147483647

/-- One less than `EXIT_STATUS(k)`: open (spec/60_exceptions.md R175, D12). No body: nothing can be proved of
its values (log 12). -/
opaque exitStatusLessOne : Machine.FaultKind → Nat

/-- `EXIT_STATUS(k)`: open but non-zero (R175). -/
def exitStatus (k : Machine.FaultKind) : Nat := exitStatusLessOne k + 1

/-- `BLANK_LINE_WORD`, what the assembler emits for a blank source line: open (spec/30_encoding.md R83, D14).
No body: nothing can be proved of its value (log 14). -/
opaque blankLineWord : Word

end Sys2Proof.Config
end

