-- ==== Sys2Proof/Syntax.lean ====
section
/-! DEFINITION. The eight instructions (spec/30_encoding.md R67; spec/opcode_table.json) and the register
fields each one reads and writes (spec/10_state.md R22). -/

namespace Sys2Proof

/-- One constructor per row of the opcode table, with the fields R67 says the row uses.
An offset is the integer the decoder gives (R62); `Instr.wellFormed` bounds it. -/
inductive Instr where
  /-- R120, opcode 0, R-type. -/
  | add (regA regB destReg : RegIndex)
  /-- R121, opcode 1, R-type. -/
  | nand (regA regB destReg : RegIndex)
  /-- R131, opcode 2, I-type. -/
  | lw (regA regB : RegIndex) (offset : Int)
  /-- R132, opcode 3, I-type. -/
  | sw (regA regB : RegIndex) (offset : Int)
  /-- R140, opcode 4, I-type, PC-relative. -/
  | beq (regA regB : RegIndex) (offset : Int)
  /-- R141, opcode 5, J-type. -/
  | jalr (regA regB : RegIndex)
  /-- R150, opcode 6, O-type. -/
  | halt
  /-- R151, opcode 7, O-type. -/
  | noop
  deriving DecidableEq, Repr

/-- The registers an instruction reads: the column "reads" of R22. -/
def Instr.sourceRegs : Instr → List RegIndex
  | .add a b _ => [a, b]
  | .nand a b _ => [a, b]
  | .lw a _ _ => [a]
  | .sw a b _ => [a, b]
  | .beq a b _ => [a, b]
  | .jalr a _ => [a]
  | .halt => []
  | .noop => []

/-- The register an instruction writes, if any: the column "writes" of R22. -/
def Instr.destReg : Instr → Option RegIndex
  | .add _ _ d => some d
  | .nand _ _ d => some d
  | .lw _ b _ => some b
  | .sw _ _ _ => none
  | .beq _ _ _ => none
  | .jalr _ b => some b
  | .halt => none
  | .noop => none

end Sys2Proof
end

