-- ==== Sys2Proof/WellFormed.lean ====
section
/-! DEFINITION. When an instruction as written can be encoded (spec/30_encoding.md R62, R73). The register
indices need no check: their type has exactly the eight values of R21. -/

namespace Sys2Proof

/-- R73: "must satisfy −32768 ≤ offset ≤ 32767". These are also the values the decoder gives (R62). -/
def offsetInRange (offset : Int) : Bool := decide (-32768 ≤ offset ∧ offset ≤ 32767)

/-- The offset of an I-type instruction lies in its 16-bit field's range; the other formats have no check. -/
def Instr.wellFormed : Instr → Bool
  | .add _ _ _ => true
  | .nand _ _ _ => true
  | .lw _ _ off => offsetInRange off
  | .sw _ _ off => offsetInRange off
  | .beq _ _ off => offsetInRange off
  | .jalr _ _ => true
  | .halt => true
  | .noop => true

end Sys2Proof
end

