-- ==== Sys2Proof/Decode.lean ====
section
/-! DEFINITION. Readings of a word (spec/00_scope.md R9, R10), the decoder (spec/30_encoding.md R62, R67, R68),
the encoder (R70), and the host's entry point to the decoder. -/

namespace Sys2Proof

/-- R9: the two's-complement value of a word, in [-2^31, 2^31 - 1]. -/
def s32 (w : Word) : Int := w.toInt

/-- R9: the unsigned value of a word, in [0, 2^32 - 1]. -/
def u32 (w : Word) : Int := (w.toNat : Int)

/-- R9: the word whose unsigned value is `n mod 2^32`. -/
def wrap32 (n : Int) : Word := BitVec.ofInt 32 n

/-- R10: `zext_32`, a 16-bit field value unchanged. -/
def zext32 (v : BitVec 16) : Int := (v.toNat : Int)

/-- R10, `sext_32`: bit 15 is the sign bit; a field value `v ≥ 32768` becomes `v - 65536`. -/
def signExtend16 (v : BitVec 16) : Int :=
  if v.toNat < 32768 then zext32 v else zext32 v - 65536

/-- The decoder's five outputs (R62). They exist only inside one step (spec/10_state.md R20). -/
structure Fields where
  opcode : Fin 8
  regA : RegIndex
  regB : RegIndex
  destReg : RegIndex
  offset : Int
  deriving DecidableEq, Repr

/-- R62: every field is taken from every word, whatever the opcode. -/
def decodeFields (w : Word) : Fields where
  opcode := (w.extractLsb' 22 3).toFin
  regA := (w.extractLsb' 19 3).toFin
  regB := (w.extractLsb' 16 3).toFin
  destReg := (w.extractLsb' 0 3).toFin
  offset := signExtend16 (w.extractLsb' 0 16)

/-- R63, R110: the decoder's output `offset[31:0]`, the offset as a word. -/
def Fields.offsetWord (f : Fields) : Word := wrap32 f.offset

/-- R67: the opcode map. All eight values are assigned, so the arm `InvalidOpcode` of the document has no
place here (R68, R152). -/
def Fields.toInstr (f : Fields) : Instr :=
  match f.opcode with
  | 0 => .add f.regA f.regB f.destReg
  | 1 => .nand f.regA f.regB f.destReg
  | 2 => .lw f.regA f.regB f.offset
  | 3 => .sw f.regA f.regB f.offset
  | 4 => .beq f.regA f.regB f.offset
  | 5 => .jalr f.regA f.regB
  | 6 => .halt
  | 7 => .noop

/-- The instruction a word stands for. Total on all 2^32 words: no word is refused (R63, R68). -/
def decode (w : Word) : Instr := (decodeFields w).toInstr

/-- The opcode of each instruction (R67). -/
def Instr.opcode : Instr → Fin 8
  | .add _ _ _ => 0
  | .nand _ _ _ => 1
  | .lw _ _ _ => 2
  | .sw _ _ _ => 3
  | .beq _ _ _ => 4
  | .jalr _ _ => 5
  | .halt => 6
  | .noop => 7

/-- A three-bit field value at bit position `lo` of a word, every other bit 0. -/
def fieldAt (lo : Nat) (v : Fin 8) : Word := BitVec.ofNat 32 v.val <<< lo

/-- R70: `(opcode << 22) | (regA << 19) | (regB << 16)`. -/
def encodeHead (op a b : Fin 8) : Word := fieldAt 22 op ||| fieldAt 19 a ||| fieldAt 16 b

/-- R70: `offset & 0xFFFF`, at bits 15 to 0. -/
def encodeOffset (offset : Int) : Word := wrap32 offset &&& 0xFFFF#32

/-- R70: each operand at its field's position and every other bit 0 (log 13). -/
def encode (i : Instr) : Word :=
  match i with
  | .add a b d => encodeHead i.opcode a b ||| fieldAt 0 d
  | .nand a b d => encodeHead i.opcode a b ||| fieldAt 0 d
  | .lw a b off => encodeHead i.opcode a b ||| encodeOffset off
  | .sw a b off => encodeHead i.opcode a b ||| encodeOffset off
  | .beq a b off => encodeHead i.opcode a b ||| encodeOffset off
  | .jalr a b => encodeHead i.opcode a b
  | .halt => fieldAt 22 i.opcode
  | .noop => fieldAt 22 i.opcode

/-- R70, R76: `.fill value` emits the value itself, with no opcode field. -/
def encodeFill (value : Int) : Word := wrap32 value

/-- The bits of a word that the format of each instruction uses (R61); the rest are "unused". -/
def Instr.usedBits : Instr → Word
  | .add _ _ _ => 0x01FF0007#32
  | .nand _ _ _ => 0x01FF0007#32
  | .lw _ _ _ => 0x01FFFFFF#32
  | .sw _ _ _ => 0x01FFFFFF#32
  | .beq _ _ _ => 0x01FFFFFF#32
  | .jalr _ _ => 0x01FF0000#32
  | .halt => 0x01C00000#32
  | .noop => 0x01C00000#32

/-- The one word of an instruction of `nbits` bits with value `w`: the bits above `nbits` are 0. -/
def tableWord (nbits w : Nat) : Word := BitVec.ofNat 32 (w % 2 ^ nbits)

/-- The decoder as the host asks it, on a row of spec/opcode_table.json. Every instruction is exactly one
32-bit word (R60), so a longer row is none of this hardware's. -/
def decodeTableWord (nbits w : Nat) : Option Instr :=
  if nbits ≤ 32 then some (decode (tableWord nbits w)) else none

end Sys2Proof
end

