-- ==== Sys2Proof/Machine/Ops.lean ====
section
/-! DEFINITION. The named operations over registers and memory (spec/20_memory.md R42, spec/40_step.md R111),
retiring a step (R104), and fault entry (spec/60_exceptions.md R163). -/

namespace Sys2Proof.Machine

/-! ### Registers -/

/-- `x[i]` (R11, R21). No register is hardwired. -/
def readReg (s : State) (i : RegIndex) : Word := s.x[i]

/-- `x[i] <- v` (R11, R21). -/
def writeReg (s : State) (i : RegIndex) (v : Word) : State := { s with x := s.x.set i v }

/-- `pc <- t` (R11). -/
def setPc (s : State) (t : Int) : State := { s with pc := t }

/-- The new memory of a step (R42). -/
def setMem (s : State) (m : Memory) : State := { s with mem := m }

/-- The new run status of a step (R29). -/
def setStatus (s : State) (r : RunStatus) : State := { s with status := r }

/-! ### Memory -/

/-- The value of word `a` among the listed cells; 0 when none lists it. -/
def cellValue (a : Nat) : List Cell → Word
  | [] => 0#32
  | c :: cs => if c.1 = a then c.2 else cellValue a cs

/-- The listed cells with `(a, v)` put at its place in rising order. -/
def insertCell (a : Nat) (v : Word) : List Cell → List Cell
  | [] => [(a, v)]
  | c :: cs => if a < c.1 then (a, v) :: c :: cs else c :: insertCell a v cs

/-- The listed cells with word `a` changed to `v`, in canonical form: a word 0 is not listed. -/
def updateCells (a : Nat) (v : Word) (cs : List Cell) : List Cell :=
  let rest := cs.filter (fun c => c.1 ≠ a)
  if v = 0#32 then rest else insertCell a v rest

/-- Word `a` of the memory, for an address already checked (R40). -/
def Memory.get (m : Memory) (a : Nat) : Word := cellValue a m.cells

/-- The memory with word `a` replaced by `v`, for an address already checked. The length stays (R41). -/
def Memory.set (m : Memory) (a : Nat) (v : Word) : Memory := { m with cells := updateCells a v m.cells }

/-- R42: the addresses at which the primitives are defined. -/
def Memory.inBounds (m : Memory) (a : Int) : Bool := decide (0 ≤ a ∧ a < (m.length : Int))

/-- `MemRead(a, 1)`, defined only inside the memory (R42). -/
def memRead (m : Memory) (a : Int) : Option Word :=
  if m.inBounds a then some (m.get a.toNat) else none

/-- `MemWrite(a, 1, v)`, defined only inside the memory (R42). -/
def memWrite (m : Memory) (a : Int) (v : Word) : Option Memory :=
  if m.inBounds a then some (m.set a.toNat v) else none

/-- The cells of an image whose first word is at address `a`. -/
def imageCells (a : Nat) : List Word → List Cell
  | [] => []
  | w :: ws => if w = 0#32 then imageCells (a + 1) ws else (a, w) :: imageCells (a + 1) ws

/-- R31, R48: the memory is the image and nothing else, word `i` of the image at index `i`. -/
def Memory.ofImage (image : List Word) : Memory where
  length := image.length
  cells := imageCells 0 image

/-- R190: the reset state of a loaded image. -/
def State.boot (image : List Word) : State := { State.reset with mem := Memory.ofImage image }

/-! ### The step's frame -/

/-- R101, R102: the word at the pc, or none when the fetch check fails. -/
def fetch (s : State) : Option Word := memRead s.mem s.pc

/-- `pc <- pc + 1`, the pc incrementer of R112. -/
def advance (s : State) : State := setPc s (s.pc + 1)

/-- `count <- count + 1` (R30, R104). -/
def bumpCount (s : State) : State := { s with count := s.count + 1 }

/-- R104: the step's writes take effect together and the count grows by one. -/
def retire (s : State) : Host.Outcome State Fault Refusal := .next (bumpCount s)

/-- R163: fault entry, the one operation every fault of a step goes through. `s` is the state BEFORE the step:
no register, memory word, pc or count is written, and the run status becomes `Faulted(k)`. There is no return
from it (R167). -/
def raiseFault (k : FaultKind) (s : State) : Host.Outcome State Fault Refusal := .next (setStatus s (.faulted k))

/-! ### Placing one instruction from outside -/

/-- Where a word is placed so that the next fetch reads it: at the pc, or at 0 when no memory has the pc (log 18). -/
def placeAddress (s : State) : Nat :=
  if 0 ≤ s.pc ∧ s.pc < (Config.maxWords : Int) then s.pc.toNat else 0

/-- The memory with word `a` replaced by `w`, made long enough to hold it. This stands for a load (log 3); no
instruction does it (R41). -/
def Memory.place (m : Memory) (a : Nat) (w : Word) : Memory :=
  Memory.set { m with length := max m.length (a + 1) } a w

/-- The state whose next step fetches `w` (log 3, log 18). -/
def placeWord (s : State) (w : Word) : State :=
  { s with pc := (placeAddress s : Int), status := .running, mem := s.mem.place (placeAddress s) w }

end Sys2Proof.Machine
end

