-- ==== Sys2Proof/Machine/Operands.lean ====
section
/-! DEFINITION. The arithmetic units of spec/40_step.md R112 and the address forms of spec/42_loadstore.md R130 and
spec/43_control.md R140, R141. The core has no other arithmetic and no other operand form (R66, R112). -/

namespace Sys2Proof.Machine

/-- `alu(ADD, a, b) = wrap32(u32(a) + u32(b))`: overflow is silent (R112, R120; D2, log 5). -/
def aluAdd (a b : Word) : Word := wrap32 (u32 a + u32 b)

/-- `alu(NAND, a, b) = ~(a & b)`, on all 32 bits (R112, R121). -/
def aluNand (a b : Word) : Word := ~~~(a &&& b)

/-- R130: `s32(x[regA]) + offset`, an integer sum without wrap (D4, log 7). -/
def effectiveAddress (s : State) (regA : RegIndex) (offset : Int) : Int := s32 (readReg s regA) + offset

/-- R112, R140: `pc + 1 + offset`, an integer sum without wrap (D3, log 6). -/
def branchTarget (s : State) (offset : Int) : Int := s.pc + 1 + offset

/-- R141: `s32(x[regA])`, the target of `jalr`. -/
def jumpTarget (s : State) (regA : RegIndex) : Int := s32 (readReg s regA)

/-- R141: the link `pc + 1` as the word written to the register. -/
def linkWord (s : State) : Word := wrap32 (s.pc + 1)

end Sys2Proof.Machine
end

