-- ==== Sys2Proof/Machine/Alu.lean ====
section
/-! DEFINITION. The R-type instructions (spec/41_alu.md). -/

namespace Sys2Proof.Machine

/-- R120: `x[destReg] <- wrap32(u32(x[regA]) + u32(x[regB]))`; `pc <- pc + 1`. -/
def execAdd (regA regB destReg : RegIndex) (s : State) : Host.Outcome State Fault Refusal :=
  retire (advance (writeReg s destReg (aluAdd (readReg s regA) (readReg s regB))))

/-- R121: `x[destReg] <- ~(x[regA] & x[regB])`; `pc <- pc + 1`. -/
def execNand (regA regB destReg : RegIndex) (s : State) : Host.Outcome State Fault Refusal :=
  retire (advance (writeReg s destReg (aluNand (readReg s regA) (readReg s regB))))

end Sys2Proof.Machine
end

