-- ==== Sys2Proof/Machine/Flags.lean ====
section
/-! DEFINITION. The core has no flags or condition codes (spec/10_state.md R27). Its one condition is the equality
comparator of spec/40_step.md R112, which `beq` reads inside its own step. -/

namespace Sys2Proof.Machine

/-- `eq(a, b)`: the two 32-bit patterns are equal (R112, R140). -/
def patternsEqual (a b : Word) : Bool := a == b

end Sys2Proof.Machine
end

