-- ==== Sys2Proof/Machine/Control.lean ====
section
/-! DEFINITION. The control-transfer instructions (spec/43_control.md). A target is not checked here: the next
step's fetch check does it (R140, R141, R143). -/

namespace Sys2Proof.Machine

/-- R140: `pc + 1 + offset` when the two patterns are equal, else `pc + 1`. -/
def execBeq (regA regB : RegIndex) (offset : Int) (s : State) : Host.Outcome State Fault Refusal :=
  if patternsEqual (readReg s regA) (readReg s regB) then retire (setPc s (branchTarget s offset))
  else retire (advance s)

/-- R141: link and target are computed from the old state, then the pc and `x[regB]` are written. -/
def execJalr (regA regB : RegIndex) (s : State) : Host.Outcome State Fault Refusal :=
  retire (writeReg (setPc s (jumpTarget s regA)) regB (linkWord s))

end Sys2Proof.Machine
end

