-- ==== Sys2Proof/Machine/LoadStore.lean ====
section
/-! DEFINITION. The memory instructions (spec/42_loadstore.md). -/

namespace Sys2Proof.Machine

/-- R130, R131: `x[regB] <- MemRead(EA, 1)`; `pc <- pc + 1`; `MemoryOutOfBounds` outside the memory. -/
def execLw (regA regB : RegIndex) (offset : Int) (s : State) : Host.Outcome State Fault Refusal :=
  match memRead s.mem (effectiveAddress s regA offset) with
  | some v => retire (advance (writeReg s regB v))
  | none => raiseFault .memoryOutOfBounds s

/-- R130, R132: `MemWrite(EA, 1, x[regB])`; `pc <- pc + 1`; `MemoryOutOfBounds` outside the memory. -/
def execSw (regA regB : RegIndex) (offset : Int) (s : State) : Host.Outcome State Fault Refusal :=
  match memWrite s.mem (effectiveAddress s regA offset) (readReg s regB) with
  | some m => retire (advance (setMem s m))
  | none => raiseFault .memoryOutOfBounds s

end Sys2Proof.Machine
end

