-- ==== Sys2Proof/Machine/System.lean ====
section
/-! DEFINITION. The O-type instructions (spec/44_system.md). -/

namespace Sys2Proof.Machine

/-- R150: `pc <- pc + 1`; `status <- Halted`; the step retires (C2, log 17). -/
def execHalt (s : State) : Host.Outcome State Fault Refusal := retire (setStatus (advance s) .halted)

/-- R151: `pc <- pc + 1`. -/
def execNoop (s : State) : Host.Outcome State Fault Refusal := retire (advance s)

end Sys2Proof.Machine
end

