-- ==== Sys2Proof/Machine/Step.lean ====
section
/-! DEFINITION. One step (spec/40_step.md R100) and the placing of one instruction for the host. -/

namespace Sys2Proof.Machine

/-- R100: from `Running`, the fetch check (R101), the fetch (R102), decoding and dispatch (R103); retiring is part
of each arm (R104). From `Halted` and `Faulted(k)` no step is defined (R106), and the step stops by name (log 4). -/
def step (s : State) : Host.Outcome State Fault Refusal :=
  match s.status with
  | .running =>
    match fetch s with
    | some w => exec (decode w) s
    | none => raiseFault .programCounterOutOfBounds s
  | .halted => .fault .halted
  | .faulted k => .fault (.faulted k)

/-- `s` with the instruction of `nbits` bits and value `w` stored where the next step fetches: the memory is made
long enough to hold that word, the pc is one at which a word can stand, and the run status is `Running` (log 3,
log 18). -/
def State.withFetchWord (s : State) (nbits w : Nat) : State := placeWord s (tableWord nbits w)

end Sys2Proof.Machine
end

