-- ==== Sys2Proof/Machine/Text.lean ====
section
/-! DEFINITION. Text as lists of characters: whitespace, tokens, and signed decimals in and out (spec/30_encoding.md
R79, R82, R86; spec/70_reset_and_hazards.md R191). -/

namespace Sys2Proof.Machine

/-- One line of text, without its line end (log 24). -/
abbrev Line := List Char

/-- One token of a line: characters, none of them white. -/
abbrev Token := List Char

/-- Space, tab, carriage return and line feed (log 11). -/
def isWhite (c : Char) : Bool := c.isWhitespace

/-- The line without its leading and trailing whitespace (R191). -/
def trim (l : Line) : Line := ((l.dropWhile isWhite).reverse.dropWhile isWhite).reverse

/-- The tokens of a line, split at whitespace; `tok` holds the characters of the token being read, last first. -/
def tokensFrom (tok : Token) : Line → List Token
  | [] => if tok.isEmpty then [] else [tok.reverse]
  | c :: cs =>
    if isWhite c then (if tok.isEmpty then tokensFrom [] cs else tok.reverse :: tokensFrom [] cs)
    else tokensFrom (c :: tok) cs

/-- R79: split on whitespace into tokens. -/
def tokens (l : Line) : List Token := tokensFrom [] l

/-- `[0-9]+` and its value. -/
def parseDigits (t : Token) : Option Nat :=
  if !t.isEmpty && t.all Char.isDigit then some (Nat.ofDigitChars 10 t 0) else none

/-- `[+-]?[0-9]+` and its value (R82, R191; D8, D22). -/
def parseDecimal (t : Token) : Option Int :=
  match t with
  | '+' :: ds => (parseDigits ds).map (fun n : Nat => (n : Int))
  | '-' :: ds => (parseDigits ds).map (fun n : Nat => -(n : Int))
  | ds => (parseDigits ds).map (fun n : Nat => (n : Int))

/-- A value that a 32-bit word can hold signed: [-2^31, 2^31 - 1]. -/
def fitsWord (n : Int) : Bool := decide (-2147483648 ≤ n ∧ n ≤ 2147483647)

/-- The signed base-10 text of an integer. -/
def printInt (n : Int) : Line := if n < 0 then '-' :: Nat.toDigits 10 n.natAbs else Nat.toDigits 10 n.natAbs

/-- R86: "The decimal printed for word `w` is `s32(w)`." -/
def printWord (w : Word) : Line := printInt (s32 w)

end Sys2Proof.Machine
end

