-- ==== Sys2Proof/Machine/Assembler.lean ====
section
/-! DEFINITION. The assembly language and its encoder (spec/30_encoding.md R70 to R87), as a function from source
lines to words. It is surrounding software (spec/00_scope.md R6) and no step uses it; it fixes the words the hardware
runs and the text the loader reads. -/

namespace Sys2Proof.Machine

/-- R85: the assembler's errors, each with the 1-based source line it names. Any of them aborts the run. -/
inductive AsmError where
  | duplicateLabel (line : Nat)
  | undefinedLabel (line : Nat)
  | offsetOutOfRange (line : Nat)
  | unrecognizedOpcode (line : Nat)
  | registerOutOfRange (line : Nat)
  | malformedLine (line : Nat)
  | fillValueOutOfRange (line : Nat)
  | fileOpenError
  deriving DecidableEq, Repr

/-- R80: the nine reserved mnemonics. -/
inductive Mnemonic where
  | add | nand | lw | sw | beq | jalr | halt | noop | fill
  deriving DecidableEq, Repr

/-- R80: exact, case-sensitive match with a reserved mnemonic (D20). -/
def mnemonicOf (t : Token) : Option Mnemonic :=
  if t = ['a', 'd', 'd'] then some .add
  else if t = ['n', 'a', 'n', 'd'] then some .nand
  else if t = ['l', 'w'] then some .lw
  else if t = ['s', 'w'] then some .sw
  else if t = ['b', 'e', 'q'] then some .beq
  else if t = ['j', 'a', 'l', 'r'] then some .jalr
  else if t = ['h', 'a', 'l', 't'] then some .halt
  else if t = ['n', 'o', 'o', 'p'] then some .noop
  else if t = ['.', 'f', 'i', 'l', 'l'] then some .fill
  else none

/-- R80, R81: the mnemonic an instruction is written with. None is written with `.fill`. -/
def instrMnemonic : Instr → Mnemonic
  | .add _ _ _ => .add
  | .nand _ _ _ => .nand
  | .lw _ _ _ => .lw
  | .sw _ _ _ => .sw
  | .beq _ _ _ => .beq
  | .jalr _ _ => .jalr
  | .halt => .halt
  | .noop => .noop

/-- A source line after label detection (R79, R80). A mnemonic may still be missing or unknown. -/
inductive ParsedLine where
  /-- A blank or comment-only line, which still takes an address (R83). -/
  | blank
  | statement (label : Option Token) (mnemonic : Option Token) (operands : List Token)
  deriving DecidableEq, Repr

/-- R80: no label when the first token is a reserved mnemonic; else the first token is the label. -/
def parseTokens : List Token → ParsedLine
  | [] => .blank
  | t :: ts =>
    if (mnemonicOf t).isSome then .statement none (some t) ts
    else
      match ts with
      | [] => .statement (some t) none []
      | u :: us => .statement (some t) (some u) us

/-- R79: the comment is stripped from the first `;` on, then the line is split into tokens. -/
def parseLine (l : Line) : ParsedLine := parseTokens (tokens (l.takeWhile (fun c => c ≠ ';')))

/-- R84: label to address. -/
abbrev SymbolTable := List (Token × Nat)

/-- The label a line defines, if any. -/
def labelOf (l : Line) : Option Token :=
  match parseLine l with
  | .blank => none
  | .statement label _ _ => label

/-- R83, R84: the table of the lines from address `addr` on, added to `tab`. A label defined before fails at its
second definition (`DuplicateLabel`), used or not. -/
def collectLabels (addr : Nat) (tab : SymbolTable) : List Line → Except AsmError SymbolTable
  | [] => .ok tab
  | l :: ls =>
    match labelOf l with
    | none => collectLabels (addr + 1) tab ls
    | some t =>
      if (tab.lookup t).isSome then .error (.duplicateLabel (addr + 1))
      else collectLabels (addr + 1) (tab ++ [(t, addr)]) ls

/-- R77: a register operand is a literal integer in [0, 7]; any other token is refused (C3, D21, log 16). -/
def registerOperand (line : Nat) (t : Token) : Except AsmError RegIndex :=
  match parseDecimal t with
  | some n => if h : 0 ≤ n ∧ n ≤ 7 then .ok ⟨n.toNat, by omega⟩ else .error (.registerOutOfRange line)
  | none => .error (.registerOutOfRange line)

/-- R72, R76: a numeric operand is its own value; any other token is a label, looked up in the table. -/
def valueOrLabel (tab : SymbolTable) (line : Nat) (t : Token) (ofLabel : Nat → Int) : Except AsmError Int :=
  match parseDecimal t with
  | some n => .ok n
  | none =>
    match tab.lookup t with
    | some a => .ok (ofLabel a)
    | none => .error (.undefinedLabel line)

/-- R72: the distance from the instruction after `addr` to the label. -/
def branchDistance (addr : Nat) (symbolAddress : Nat) : Int := (symbolAddress : Int) - ((addr : Int) + 1)

/-- R73: the resolved offset, or `OffsetOutOfRange`. -/
def checkOffset (line : Nat) (n : Int) : Except AsmError Int :=
  if offsetInRange n then .ok n else .error (.offsetOutOfRange line)

/-- R72, R73: the third operand of `lw` and `sw`: a label's address is the offset itself. -/
def dataOffset (tab : SymbolTable) (line : Nat) (t : Token) : Except AsmError Int :=
  (valueOrLabel tab line t (fun a => (a : Int))).bind (checkOffset line)

/-- R72, R73: the third operand of `beq`: a label becomes a PC-relative distance, a literal is never adjusted. -/
def branchOffset (tab : SymbolTable) (addr line : Nat) (t : Token) : Except AsmError Int :=
  (valueOrLabel tab line t (branchDistance addr)).bind (checkOffset line)

/-- R71: two source registers and a destination. -/
def threeRegisters (line : Nat) (make : RegIndex → RegIndex → RegIndex → Instr) (a b d : Token) :
    Except AsmError Instr :=
  (registerOperand line a).bind fun ra =>
  (registerOperand line b).bind fun rb =>
  (registerOperand line d).map fun rd => make ra rb rd

/-- R72: two registers and a resolved offset. -/
def registersAndOffset (line : Nat) (make : RegIndex → RegIndex → Int → Instr) (a b : Token)
    (offset : Except AsmError Int) : Except AsmError Instr :=
  (registerOperand line a).bind fun ra =>
  (registerOperand line b).bind fun rb =>
  offset.map fun off => make ra rb off

/-- R74: two registers. -/
def twoRegisters (line : Nat) (make : RegIndex → RegIndex → Instr) (a b : Token) : Except AsmError Instr :=
  (registerOperand line a).bind fun ra =>
  (registerOperand line b).map fun rb => make ra rb

/-- R76: the value of `.fill`, or `FillValueOutOfRange` (D15, log 15). -/
def fillWord (tab : SymbolTable) (line : Nat) (t : Token) : Except AsmError Word :=
  (valueOrLabel tab line t (fun a => (a : Int))).bind fun n =>
  if fitsWord n then .ok (encodeFill n) else .error (.fillValueOutOfRange line)

/-- R71 to R77, R81: the word of one statement at address `addr`, which is source line `addr + 1`. A wrong operand
count is `MalformedLine` (D21). -/
def encodeStatement (tab : SymbolTable) (addr : Nat) (m : Mnemonic) (operands : List Token) : Except AsmError Word :=
  let line := addr + 1
  match m, operands with
  | .add, [a, b, d] => (threeRegisters line .add a b d).map encode
  | .nand, [a, b, d] => (threeRegisters line .nand a b d).map encode
  | .lw, [a, b, o] => (registersAndOffset line .lw a b (dataOffset tab line o)).map encode
  | .sw, [a, b, o] => (registersAndOffset line .sw a b (dataOffset tab line o)).map encode
  | .beq, [a, b, o] => (registersAndOffset line .beq a b (branchOffset tab addr line o)).map encode
  | .jalr, [a, b] => (twoRegisters line .jalr a b).map encode
  | .halt, [] => .ok (encode .halt)
  | .noop, [] => .ok (encode .noop)
  | .fill, [v] => fillWord tab line v
  | _, _ => .error (.malformedLine line)

/-- R81, R83: the word of one source line. A blank line's word is open (D14, log 14). -/
def encodeLine (tab : SymbolTable) (addr : Nat) (l : Line) : Except AsmError Word :=
  match parseLine l with
  | .blank => .ok Config.blankLineWord
  | .statement _ none _ => .error (.malformedLine (addr + 1))
  | .statement _ (some t) operands =>
    match mnemonicOf t with
    | some m => encodeStatement tab addr m operands
    | none => .error (.unrecognizedOpcode (addr + 1))

/-- R83, R85: the words of the lines from address `addr` on, in order; the first error ends it. -/
def encodeLines (tab : SymbolTable) (addr : Nat) : List Line → Except AsmError (List Word)
  | [] => .ok []
  | l :: ls =>
    (encodeLine tab addr l).bind fun w => (encodeLines tab (addr + 1) ls).map fun ws => w :: ws

/-- The assembler: all labels first, then all words (R84: "pass 2 runs after the table is complete"). `none` is a
source that cannot be opened (R85). -/
def assemble (source : Option (List Line)) : Except AsmError (List Word) :=
  match source with
  | none => .error .fileOpenError
  | some ls => (collectLabels 0 [] ls).bind fun tab => encodeLines tab 0 ls

/-- R86: one line per word, its signed decimal value, in address order: what the loader reads. -/
def printImage (image : List Word) : List Line := image.map printWord

end Sys2Proof.Machine
end

