-- ==== Sys2Proof/Machine/Loader.lean ====
section
/-! DEFINITION. The image loader (spec/70_reset_and_hazards.md R191, R192). -/

namespace Sys2Proof.Machine

/-- What one line of the image text is (R191). -/
inductive ImageLine where
  | blank
  | word (w : Word)
  | malformed
  deriving DecidableEq, Repr

/-- R191, one line: blank lines are skipped, a signed 32-bit decimal is a word, anything else is malformed
(D8, log 11). -/
def readImageLine (l : Line) : ImageLine :=
  if (trim l).isEmpty then .blank
  else
    match parseDecimal (trim l) with
    | some n => if fitsWord n then .word (wrap32 n) else .malformed
    | none => .malformed

/-- R191, the loop over the lines; `line` is the 1-based number of the first one. The first malformed line ends it. -/
def readImage (line : Nat) : List Line → Except Nat (List Word)
  | [] => .ok []
  | l :: ls =>
    match readImageLine l with
    | .blank => readImage (line + 1) ls
    | .word w => (readImage (line + 1) ls).map (fun ws => w :: ws)
    | .malformed => .error line

/-- R190 to R192: the machine right after loading a text, or the loader's one failure. `none` is an input that
cannot be opened. An image of more than 2^31 - 1 words is refused (D7, log 10). -/
def load (input : Option (List Line)) : Host.Outcome State Fault Refusal :=
  match input with
  | none => .fault .fileOpenError
  | some ls =>
    match readImage 1 ls with
    | .error line => .fault (.malformedInputWord line)
    | .ok image => if image.length ≤ Config.maxWords then .next (State.boot image) else .refused .imageTooLong

end Sys2Proof.Machine
end

