-- ==== Sys2Proof/Machine/Report.lean ====
section
/-! DEFINITION. What the host reads of a run: the report (spec/60_exceptions.md R174), the one diagnostic and the exit
status (R175). Its layout is not modelled (I14). -/

namespace Sys2Proof.Machine

/-- R174: the report's content, with words as signed values (D17). -/
structure Report where
  status : RunStatus
  count : Nat
  pc : Int
  memory : List Int
  registers : List Int
  deriving DecidableEq, Repr

/-- The words `mem[a]`, `mem[a + 1]`, …, `n` of them, as signed values. -/
def memoryValues (m : Memory) : Nat → Nat → List Int
  | _, 0 => []
  | a, n + 1 => s32 (m.get a) :: memoryValues m (a + 1) n

/-- R174: read when the run status leaves `Running`; before that there is no report (log 19). -/
def report (s : State) : Option Report :=
  match s.status with
  | .running => none
  | .halted | .faulted _ =>
    some { status := s.status, count := s.count, pc := s.pc,
           memory := memoryValues s.mem 0 s.mem.length, registers := s.x.toList.map s32 }

/-- R175: the one diagnostic of a fatal condition: the fault kind, with the pc at which it occurred for a fault of
the core and the line for a malformed line of the image. -/
structure Diagnostic where
  kind : FaultKind
  pc : Option Int
  line : Option Nat
  deriving DecidableEq, Repr

/-- R175: the diagnostic of a run; a run that did not fault has none. -/
def runDiagnostic (s : State) : Option Diagnostic :=
  match s.status with
  | .faulted k => some { kind := k, pc := some s.pc, line := none }
  | .running => none
  | .halted => none

/-- R192: the diagnostic of a failed load. -/
def loadDiagnostic (f : Fault) : Option Diagnostic :=
  match f with
  | .malformedInputWord line => some { kind := .malformedInputWord, pc := none, line := some line }
  | .fileOpenError => some { kind := .fileOpenError, pc := none, line := none }
  | .halted => none
  | .faulted _ => none

/-- R175: 0 when the run ends in `Halted`, `EXIT_STATUS(k)` when it ends in `Faulted(k)` (D12, log 12). A run that
has not ended has none. -/
def runExitStatus (s : State) : Option Nat :=
  match s.status with
  | .halted => some 0
  | .faulted k => some (Config.exitStatus k)
  | .running => none

/-- R192: the exit status of a failed load. -/
def loadExitStatus (f : Fault) : Option Nat := (loadDiagnostic f).map (fun d => Config.exitStatus d.kind)

end Sys2Proof.Machine
end

