-- ==== Sys2Proof/Machine/Run.lean ====
section
/-! DEFINITION. Repeating the step (spec/40_step.md R107) and stopping from outside (R108). -/

namespace Sys2Proof.Machine

/-- At most `n` steps, ending early where no step is defined; the state then stays as it is (R106, R177). Stopping
after `n` steps is cancellation: it changes no state and sets no run status (R108). -/
def runSteps : Nat → State → State
  | 0, s => s
  | n + 1, s =>
    match step s with
    | .next t => runSteps n t
    | .fault _ => s
    | .refused _ => s

/-- R107: the run from `s` ends in `t`, which is `Halted` or `Faulted(k)`. Nothing says that a run ends (R200). -/
def RunEndsIn (s t : State) : Prop := t.status ≠ .running ∧ ∃ n, runSteps n s = t

/-- What the host is left with, for its parameter `STEP_BUDGET` (R108, D11, log 20): with a budget, the state after
that many steps; with none, the state the run ends in. -/
def HostLeftWith (stepBudget : Option Nat) (s t : State) : Prop :=
  match stepBudget with
  | some n => runSteps n s = t
  | none => RunEndsIn s t

end Sys2Proof.Machine
end

