-- ==== Sys2Proof/Safety.lean ====
section
/-! DEFINITION. What counts as a legal state, and as a safe run. -/

namespace Sys2Proof.Machine

/-- A state that a run can be in: the facts of spec/10_state.md R24 and R29, spec/20_memory.md R41 and
spec/60_exceptions.md R161 that tie the fields together. -/
structure State.Inv (s : State) : Prop where
  /-- The memory is in its canonical form (log 2). -/
  mem_wf : s.mem.wf
  /-- `N_MEM ≤ 2^31 - 1` (R41, D7). -/
  length_le : s.mem.length ≤ Config.maxWords
  /-- R24: no step leaves the pc below -2^31 (a `jalr`). -/
  pc_ge : -2147483648 ≤ s.pc
  /-- R24: no step leaves the pc above `N_MEM + 32767` (a `beq`) or 2^31 - 1 (a `jalr`). -/
  pc_le : s.pc ≤ 2147483647 + 32767
  /-- R161: the core itself raises only these two kinds. -/
  faulted_kind : ∀ k, s.status = .faulted k → k = .programCounterOutOfBounds ∨ k = .memoryOutOfBounds

/-- The run status says that a step faulted (R163). -/
def State.isFaulted (s : State) : Prop := ∃ k, s.status = .faulted k

/-- No step of the run from `s` faults; the run may halt or go on for ever (R107). -/
def SafeRun (s : State) : Prop := ∀ n, ¬ (runSteps n s).isFaulted

end Sys2Proof.Machine
end

