-- ==== Sys2Proof/Certificates/Slice0/Obligations.lean ====
section
/-! DEFINITION. The statements for the provers. Each docstring names the rules of spec/ it formalises; "model's choice"
marks a clause that rests on a decision of the spec's own (D n) or on a log entry. -/

open Sys2Proof Sys2Proof.Machine

/-! ### Encoding (spec/30_encoding.md) -/

/-- R78: decoding an encoded well-formed instruction gives it back, with every operand at every value the encoding
admits. That the encoder leaves the other bits 0 is D13 (log 13). -/
def Obligations.DecodeOfEncodeIsTheInstruction : Prop :=
  ∀ i : Instr, i.wellFormed = true → decode (encode i) = i

/-- R68: a word executes exactly as the word with its unused bits cleared, and encoding what a word decodes to gives
that cleared word (zeros: D13, log 13). -/
def Obligations.UnusedBitsAreIgnored : Prop :=
  ∀ w : Word, decode (w &&& (decode w).usedBits) = decode w ∧ encode (decode w) = w &&& (decode w).usedBits

/-- R62, R63, R68: every word decodes, and to a well-formed instruction: an offset lies in [-32768, 32767]. -/
def Obligations.EveryWordDecodesWellFormed : Prop :=
  ∀ w : Word, (decode w).wellFormed = true

/-- R62: the five fields in the document's own shifts and masks, whatever the opcode; the offset's last step is the
sign extension of R10. -/
def Obligations.DecoderExtractsTheFiveFields : Prop :=
  ∀ w : Word,
    (decodeFields w).opcode.val = (w.toNat >>> 22) &&& 0x7 ∧
    (decodeFields w).regA.val = (w.toNat >>> 19) &&& 0x7 ∧
    (decodeFields w).regB.val = (w.toNat >>> 16) &&& 0x7 ∧
    (decodeFields w).destReg.val = w.toNat &&& 0x7 ∧
    (decodeFields w).offset =
      (if w.toNat &&& 0xFFFF < 32768 then ((w.toNat &&& 0xFFFF : Nat) : Int)
       else ((w.toNat &&& 0xFFFF : Nat) : Int) - 65536)

/-- R67: the opcode map. -/
def Obligations.OpcodeSelectsTheInstruction : Prop :=
  ∀ w : Word,
    ((decodeFields w).opcode = 0 →
      decode w = .add (decodeFields w).regA (decodeFields w).regB (decodeFields w).destReg) ∧
    ((decodeFields w).opcode = 1 →
      decode w = .nand (decodeFields w).regA (decodeFields w).regB (decodeFields w).destReg) ∧
    ((decodeFields w).opcode = 2 →
      decode w = .lw (decodeFields w).regA (decodeFields w).regB (decodeFields w).offset) ∧
    ((decodeFields w).opcode = 3 →
      decode w = .sw (decodeFields w).regA (decodeFields w).regB (decodeFields w).offset) ∧
    ((decodeFields w).opcode = 4 →
      decode w = .beq (decodeFields w).regA (decodeFields w).regB (decodeFields w).offset) ∧
    ((decodeFields w).opcode = 5 → decode w = .jalr (decodeFields w).regA (decodeFields w).regB) ∧
    ((decodeFields w).opcode = 6 → decode w = .halt) ∧
    ((decodeFields w).opcode = 7 → decode w = .noop)

/-- Words written out from the spec's encodings (spec/95_test_vectors.md, decoder and encoder tables, and 0x00817FFF
from L1-2), at least one of each opcode, decode to the instructions they stand for. -/
def Obligations.WordsOfTheSpecDecode : Prop :=
  decode 0x00010002#32 = .add 0 1 2 ∧ decode 0x00397FFF#32 = .add 7 1 7 ∧ decode 0xFE000000#32 = .add 0 0 0 ∧
  decode 0x004A0003#32 = .nand 1 2 3 ∧
  decode 0x00810008#32 = .lw 0 1 8 ∧ decode 0x00808000#32 = .lw 0 0 (-32768) ∧
  decode 0x00817FFF#32 = .lw 0 1 32767 ∧
  decode 0x00C2000A#32 = .sw 0 2 10 ∧
  decode 0x0100FFFC#32 = .beq 0 0 (-4) ∧ decode 0x01080003#32 = .beq 1 0 3 ∧
  decode 0x016F0000#32 = .jalr 5 7 ∧ decode 0x0147FFFF#32 = .jalr 0 7 ∧
  decode 0x01800000#32 = .halt ∧
  decode 0x01C00000#32 = .noop ∧ decode 0xFFFFFFFF#32 = .noop

/-- R63: the decoder's 32-bit offset is bit 15 of the word copied into bits 31 to 16, bits 15 to 0 unchanged (the
interface is the spec's own naming, D10). -/
def Obligations.OffsetSignBitFillsTheUpperHalf : Prop :=
  ∀ (w : Word) (k : Nat), k < 32 →
    (decodeFields w).offsetWord.getLsbD k = if k < 16 then w.getLsbD k else w.getLsbD 15

/-! ### The step (spec/40_step.md) -/

/-- R102: a step of a running machine whose pc is in the memory is the decoded instruction at the pc, with nothing
added around it. -/
def Obligations.StepRunsTheFetchedInstruction : Prop :=
  ∀ (s : State) (w : Word), s.status = .running → memRead s.mem s.pc = some w → step s = exec (decode w) s

/-- R101, R163: a pc outside the memory faults before anything is read, with the pc holding the bad address. That the
faulting step writes nothing else and is not counted is D5 and D6 (log 8, log 9). -/
def Obligations.FetchCheckFaults : Prop :=
  ∀ s : State, s.status = .running → ¬ (0 ≤ s.pc ∧ s.pc < (s.mem.length : Int)) →
    step s = .next { s with status := .faulted .programCounterOutOfBounds }

/-- R106, R100, R174: no step is defined from `Halted` or `Faulted(k)`, the state in them stays for ever and is what the
host reports; from `Running` a step is always defined. The names the step stops by are the model's (log 4), and that
there is no report while `Running` is its inference (log 19). -/
def Obligations.StepIsDefinedExactlyWhenRunning : Prop :=
  ∀ s : State,
    ((∃ t, step s = .next t) ↔ s.status = .running) ∧
    (s.status = .halted → step s = .fault .halted) ∧
    (∀ k, s.status = .faulted k → step s = .fault (.faulted k)) ∧
    (s.status ≠ .running → ∀ n, runSteps n s = s) ∧
    ((report s).isSome = true ↔ s.status ≠ .running)

/-- The host's placing of one word (model's own, log 3 and log 18): the very next step fetches and runs exactly it,
whatever the state; registers and count stay, and the pc stays wherever a word can stand at it. -/
def Obligations.PlacedWordRunsNext : Prop :=
  ∀ (s : State) (w : Nat),
    step (s.withFetchWord 32 w) = exec (decode (BitVec.ofNat 32 w)) (s.withFetchWord 32 w) ∧
    (s.withFetchWord 32 w).x = s.x ∧ (s.withFetchWord 32 w).count = s.count ∧
    (0 ≤ s.pc → s.pc < 2147483647 → (s.withFetchWord 32 w).pc = s.pc)

/-! ### State and reset (spec/10_state.md, spec/70_reset_and_hazards.md) -/

/-- R21: all eight registers hold what was last written to them; none is hardwired. -/
def Obligations.EveryRegisterIsWritable : Prop :=
  ∀ (s : State) (i j : RegIndex) (v : Word), readReg (writeReg s i v) j = if j = i then v else readReg s j

/-- R48: the address map is the image and nothing else, and address 0 is the reset pc. -/
def Obligations.AddressMapIsTheImage : Prop :=
  ∀ image : List Word, (State.boot image).pc = 0 ∧
    ∀ a : Int, memRead (State.boot image).mem a =
      if 0 ≤ a ∧ a < (image.length : Int) then image[a.toNat]? else none

/-- R31, R190: every piece of state after reset from an image. The count's 0 is D6 (log 9); that State.reset is reset
from the empty image is the model's choice (log 3). -/
def Obligations.ResetValues : Prop :=
  (∀ image : List Word,
    (∀ i : RegIndex, readReg (State.boot image) i = 0#32) ∧
    (State.boot image).pc = 0 ∧
    (State.boot image).mem.length = image.length ∧
    (State.boot image).status = .running ∧
    (State.boot image).count = 0) ∧
  State.reset = State.boot []

/-! ### The instructions (spec/41_alu.md to spec/44_system.md) -/

/-- R120, R112: `add` for all operands and states, and the words that are one. That the sum wraps is D2 (log 5), the
count D6 (log 9). -/
def Obligations.AddResult : Prop :=
  (∀ (a b d : RegIndex) (s : State), exec (.add a b d) s =
    .next { s with x := s.x.set d (wrap32 (u32 (readReg s a) + u32 (readReg s b))),
                   pc := s.pc + 1, count := s.count + 1 }) ∧
  ∀ w : Word, w &&& 0x01C00000#32 = 0x00000000#32 →
    decode w = .add (decodeFields w).regA (decodeFields w).regB (decodeFields w).destReg

/-- R120, R122: the register holds the signed sum when a register can hold it, and else the sum folded into the signed
range, silently (D2, log 5). -/
def Obligations.AddIsTheSignedSum : Prop :=
  ∀ (a b d : RegIndex) (s : State), ∃ t, exec (.add a b d) s = .next t ∧
    (-2147483648 ≤ s32 (readReg s a) + s32 (readReg s b) → s32 (readReg s a) + s32 (readReg s b) ≤ 2147483647 →
      s32 (readReg t d) = s32 (readReg s a) + s32 (readReg s b)) ∧
    s32 (readReg t d) = (s32 (readReg s a) + s32 (readReg s b) + 2147483648) % 4294967296 - 2147483648

/-- R121: `nand` for all operands and states, also bit by bit, and the words that are one. The count is R104 with D6
(log 9). -/
def Obligations.NandResult : Prop :=
  (∀ (a b d : RegIndex) (s : State), ∃ t, exec (.nand a b d) s = .next t ∧
    t = { s with x := s.x.set d (~~~(readReg s a &&& readReg s b)), pc := s.pc + 1, count := s.count + 1 } ∧
    ∀ k < 32, (readReg t d).getLsbD k = !((readReg s a).getLsbD k && (readReg s b).getLsbD k)) ∧
  ∀ w : Word, w &&& 0x01C00000#32 = 0x00400000#32 →
    decode w = .nand (decodeFields w).regA (decodeFields w).regB (decodeFields w).destReg

/-- R130, R131, R163: `lw` completes exactly when its effective address is in the memory; outside it the step faults
with no other effect; and the words that are one. The integer sum is D4 (log 7), the fault's state D5 and D6 (log 8, log 9). -/
def Obligations.LwResult : Prop :=
  (∀ (a b : RegIndex) (off : Int) (s : State),
    (0 ≤ s32 (readReg s a) + off → s32 (readReg s a) + off < (s.mem.length : Int) →
      exec (.lw a b off) s = .next { s with x := s.x.set b (s.mem.get (s32 (readReg s a) + off).toNat),
                                            pc := s.pc + 1, count := s.count + 1 }) ∧
    (s32 (readReg s a) + off < 0 ∨ (s.mem.length : Int) ≤ s32 (readReg s a) + off →
      exec (.lw a b off) s = .next { s with status := .faulted .memoryOutOfBounds })) ∧
  ∀ w : Word, w &&& 0x01C00000#32 = 0x00800000#32 →
    decode w = .lw (decodeFields w).regA (decodeFields w).regB (decodeFields w).offset

/-- R130, R132, R163: `sw` stores the whole of `x[regB]` at its effective address and nowhere else, or faults with no
other effect; and the words that are one. The integer sum is D4 (log 7), the fault's state D5 and D6 (log 8, log 9). -/
def Obligations.SwResult : Prop :=
  (∀ (a b : RegIndex) (off : Int) (s : State),
    (0 ≤ s32 (readReg s a) + off → s32 (readReg s a) + off < (s.mem.length : Int) →
      ∃ m : Memory, exec (.sw a b off) s = .next { s with mem := m, pc := s.pc + 1, count := s.count + 1 } ∧
        m.length = s.mem.length ∧
        ∀ c : Int, memRead m c =
          if c = s32 (readReg s a) + off then some (readReg s b) else memRead s.mem c) ∧
    (s32 (readReg s a) + off < 0 ∨ (s.mem.length : Int) ≤ s32 (readReg s a) + off →
      exec (.sw a b off) s = .next { s with status := .faulted .memoryOutOfBounds })) ∧
  ∀ w : Word, w &&& 0x01C00000#32 = 0x00C00000#32 →
    decode w = .sw (decodeFields w).regA (decodeFields w).regB (decodeFields w).offset

/-- R140: `beq` for all operands and states: only the pc and the count change. The test on patterns is the test on
signed values, with an offset the encoding admits the target lies in [pc - 32767, pc + 32768], and the words that are
one are said. The integer sums are D3 (log 6), the count D6 (log 9). -/
def Obligations.BeqResult : Prop :=
  (∀ (a b : RegIndex) (off : Int) (s : State), ∃ t, exec (.beq a b off) s = .next t ∧
    t = { s with pc := if readReg s a = readReg s b then s.pc + 1 + off else s.pc + 1, count := s.count + 1 } ∧
    (readReg s a = readReg s b ↔ s32 (readReg s a) = s32 (readReg s b)) ∧
    ((Instr.beq a b off).wellFormed = true → s.pc - 32767 ≤ t.pc ∧ t.pc ≤ s.pc + 32768)) ∧
  ∀ w : Word, w &&& 0x01C00000#32 = 0x01000000#32 →
    decode w = .beq (decodeFields w).regA (decodeFields w).regB (decodeFields w).offset

/-- R141: `jalr` for all operands and states: the target is read, and the link computed, before `x[regB]` is written,
also when `regA = regB`; and the words that are one. The signed target is D3 (log 6), the count D6 (log 9). -/
def Obligations.JalrResult : Prop :=
  (∀ (a b : RegIndex) (s : State), exec (.jalr a b) s =
    .next { s with x := s.x.set b (wrap32 (s.pc + 1)), pc := s32 (readReg s a), count := s.count + 1 }) ∧
  ∀ w : Word, w &&& 0x01C00000#32 = 0x01400000#32 → decode w = .jalr (decodeFields w).regA (decodeFields w).regB

/-- R141: in a memory of legal length the link register holds `pc + 1` exactly. The bound is D7 (log 10), the signed
target D3 (log 6). -/
def Obligations.JalrLinkIsExact : Prop :=
  ∀ (a b : RegIndex) (s : State), s.mem.length ≤ 2147483647 → 0 ≤ s.pc → s.pc < (s.mem.length : Int) →
    ∃ t, exec (.jalr a b) s = .next t ∧ s32 (readReg t b) = s.pc + 1 ∧ t.pc = s32 (readReg s a)

/-- R150, R104: `halt` for all states, and every word with bits 24 to 22 equal to 6 is one. That the pc advances is C2's
reading (log 17). -/
def Obligations.HaltResult : Prop :=
  (∀ s : State, exec .halt s = .next { s with status := .halted, pc := s.pc + 1, count := s.count + 1 }) ∧
  ∀ w : Word, w &&& 0x01C00000#32 = 0x01800000#32 → decode w = .halt

/-- R151, R104: `noop` for all states, and every word with bits 24 to 22 equal to 7 is one. The count is D6 (log 9). -/
def Obligations.NoopResult : Prop :=
  (∀ s : State, exec .noop s = .next { s with pc := s.pc + 1, count := s.count + 1 }) ∧
  ∀ w : Word, w &&& 0x01C00000#32 = 0x01C00000#32 → decode w = .noop

/-! ### Frames: what an instruction leaves unchanged, and what it does not read -/

/-- R22, column "writes": no instruction writes a register but its destination. That a faulting step writes none is D5
(log 8). -/
def Obligations.OnlyTheDestinationRegisterChanges : Prop :=
  ∀ (i : Instr) (s t : State), exec i s = .next t →
    ∀ r : RegIndex,
      (match i with
        | .add _ _ d => r ≠ d
        | .nand _ _ d => r ≠ d
        | .lw _ b _ => r ≠ b
        | .jalr _ b => r ≠ b
        | .sw _ _ _ | .beq _ _ _ | .halt | .noop => True) →
      readReg t r = readReg s r

/-- R22, column "reads": two running states that differ only in registers the instruction does not read give the same
pc, memory, run status and count, and the same value in the destination register if the step does not fault. -/
def Obligations.OnlySourceRegistersAreRead : Prop :=
  ∀ (i : Instr) (s s' t t' : State), s.status = .running → s' = { s with x := s'.x } →
    (∀ r ∈ i.sourceRegs, readReg s r = readReg s' r) →
    exec i s = .next t → exec i s' = .next t' →
      t'.pc = t.pc ∧ t'.mem = t.mem ∧ t'.status = t.status ∧ t'.count = t.count ∧
      (¬ t.isFaulted → ∀ d, i.destReg = some d → readReg t' d = readReg t d)

/-- R43, R41: no instruction changes a word of memory, but for `sw` at its effective address; the length stays. The
integer address is D4 (log 7); that a faulting step writes nothing is D5 (log 8). -/
def Obligations.OnlyTheStoredWordChanges : Prop :=
  ∀ (i : Instr) (s t : State), exec i s = .next t →
    t.mem.length = s.mem.length ∧
    ∀ c : Int,
      (match i with
        | .sw a _ off => c ≠ effectiveAddress s a off
        | .add _ _ _ | .nand _ _ _ | .lw _ _ _ | .beq _ _ _ | .jalr _ _ | .halt | .noop => True) →
      memRead t.mem c = memRead s.mem c

/-- R25: the next pc of every instruction. That a faulting step leaves it is D5 (log 8); integers are D3 (log 6); the
row of `halt` is C2's reading (log 17). -/
def Obligations.NextPcOfEveryInstruction : Prop :=
  ∀ (i : Instr) (s t : State), s.status = .running → exec i s = .next t →
    (t.isFaulted → t.pc = s.pc) ∧
    (¬ t.isFaulted → t.pc =
      match i with
      | .beq a b off => if readReg s a = readReg s b then s.pc + 1 + off else s.pc + 1
      | .jalr a _ => s32 (readReg s a)
      | .add _ _ _ | .nand _ _ _ | .lw _ _ _ | .sw _ _ _ | .halt | .noop => s.pc + 1)

/-! ### Run status, faults and the count (R29, R30, spec/60_exceptions.md) -/

/-- R29, R161: a step that fetches `halt` sets `Halted`; a step that fetches anything else and meets no fault condition
leaves the run status `Running`, and no other step does, so that what remains is `Faulted(k)`; and both others are final.
The fault conditions are R161's two, with the integer sum of D4 (log 7). -/
def Obligations.StatusChangesOnlyByHaltOrFault : Prop :=
  ∀ s t : State, step s = .next t →
    (t.status = .halted ↔ ∃ w, memRead s.mem s.pc = some w ∧ decode w = .halt) ∧
    (t.status = .running ↔ (0 ≤ s.pc ∧ s.pc < (s.mem.length : Int)) ∧
      ∃ w, memRead s.mem s.pc = some w ∧ decode w ≠ .halt ∧
        ∀ a b off, decode w = .lw a b off ∨ decode w = .sw a b off →
          0 ≤ s32 (readReg s a) + off ∧ s32 (readReg s a) + off < (s.mem.length : Int)) ∧
    (t.status ≠ .running → ∀ u, step t ≠ .next u)

/-- R161, R165: a step faults exactly for these two reasons, the fetch check first; no other kind is raised, and
`InvalidOpcode` never (R152). -/
def Obligations.FaultConditionsAreExact : Prop :=
  ∀ s t : State, step s = .next t → ∀ k : FaultKind,
    t.status = .faulted k ↔
      (k = .programCounterOutOfBounds ∧ ¬ (0 ≤ s.pc ∧ s.pc < (s.mem.length : Int))) ∨
      (k = .memoryOutOfBounds ∧ ∃ w, memRead s.mem s.pc = some w ∧ ∃ a b off,
        (decode w = .lw a b off ∨ decode w = .sw a b off) ∧
        ¬ (0 ≤ s32 (readReg s a) + off ∧ s32 (readReg s a) + off < (s.mem.length : Int)))

/-- R105, R163, R164: a faulting step writes nothing but the run status (D5 and D6, log 8 and log 9). -/
def Obligations.FaultingStepHasNoOtherEffect : Prop :=
  ∀ (s t : State) (k : FaultKind), step s = .next t → t.status = .faulted k →
    t = { s with status := .faulted k }

/-- R30, R104: the count grows by exactly one on every step that retires, `halt` included, and not on a fault (D6,
log 9). -/
def Obligations.CountGrowsByOneUnlessFaulting : Prop :=
  ∀ s t : State, step s = .next t →
    (t.isFaulted → t.count = s.count) ∧ (¬ t.isFaulted → t.count = s.count + 1)

/-! ### Memory (spec/20_memory.md) -/

/-- R42, R50: the primitives are defined exactly inside the memory; a read gives the last word written there, and a
write leaves every other word and the length. -/
def Obligations.ReadGivesTheLastWrite : Prop :=
  ∀ (m : Memory) (a : Int) (v : Word),
    (0 ≤ a → a < (m.length : Int) →
      ∃ m', memWrite m a v = some m' ∧ m'.length = m.length ∧
        ∀ c : Int, memRead m' c = if c = a then some v else memRead m c) ∧
    (a < 0 ∨ (m.length : Int) ≤ a → memWrite m a v = none ∧ memRead m a = none)

/-- The canonical form is one (model's own, log 1 and log 2): canonical memories of one length that agree at every
address are the same data. -/
def Obligations.EqualWordsMeanEqualMemories : Prop :=
  ∀ m m' : Memory, m.wf → m'.wf → m.length = m'.length → (∀ a : Int, memRead m a = memRead m' a) → m = m'

/-- R54, R51: a word stored at `pc + 1` is the very next instruction executed (integer address and pc: D4 and D3, log 7
and log 6). -/
def Obligations.StoredWordIsTheNextInstruction : Prop :=
  ∀ (s : State) (w : Word) (a b : RegIndex) (off : Int),
    s.status = .running → memRead s.mem s.pc = some w → decode w = .sw a b off →
    s32 (readReg s a) + off = s.pc + 1 → s.pc + 1 < (s.mem.length : Int) →
    ∃ t, step s = .next t ∧ t.pc = s.pc + 1 ∧ step t = exec (decode (readReg s b)) t

/-! ### Invariants -/

/-- Every step keeps the invariant `State.Inv`: canonical memory (log 2), `N_MEM ≤ 2^31 - 1` (R41, D7), the pc in the
range R24 gives, and no fault kind the core does not raise (R161). -/
def Obligations.EveryStepKeepsTheInvariant : Prop :=
  ∀ s t : State, s.Inv → step s = .next t → t.Inv

/-- The invariant holds at reset. -/
def Obligations.ResetSatisfiesTheInvariant : Prop :=
  State.reset.Inv

/-- R190 to R192: a load that succeeds gives the reset state of some image of legal length, which satisfies the
invariant (the bound is D7, log 10). -/
def Obligations.LoadedStatesSatisfyTheInvariant : Prop :=
  ∀ (input : Option (List Line)) (s : State), load input = .next s →
    s.Inv ∧ ∃ image : List Word, image.length ≤ 2147483647 ∧ s = State.boot image

/-! ### Runs (R107, R108) -/

/-- R30, R107: while a run goes on, every step has retired, so `n` steps count `n`. -/
def Obligations.RunningRunHasCountedEveryStep : Prop :=
  ∀ (n : Nat) (s : State), (runSteps n s).status = .running → (runSteps n s).count = s.count + n

/-- R108: stopping after `m` steps changes nothing: going on from there is the same run. -/
def Obligations.CancelledRunCanGoOn : Prop :=
  ∀ (m n : Nat) (s : State), runSteps (m + n) s = runSteps n (runSteps m s)

/-- R107, R140: a `beq r r -1` at the pc jumps to itself for ever: any number of steps changes only the count, which is
R30 with D6 (log 9). -/
def Obligations.SelfBranchNeverEnds : Prop :=
  ∀ (s : State) (w : Word) (r : RegIndex), s.status = .running → memRead s.mem s.pc = some w →
    decode w = .beq r r (-1) → ∀ n, runSteps n s = { s with count := s.count + n }

/-- R194: falling off the end: an instruction other than `halt`, `beq` and `jalr` in the last word either faults on its
own data access or leaves the pc at `N_MEM`, where the next step faults. That the faulting step changes only the run
status, uncounted, is R163's D5 and D6 (log 8, log 9). -/
def Obligations.RunningOffTheImageFaults : Prop :=
  ∀ (s t : State) (w : Word), s.status = .running → memRead s.mem s.pc = some w →
    s.pc + 1 = (s.mem.length : Int) →
    (decode w ≠ .halt ∧ (∀ a b off, decode w ≠ .beq a b off) ∧ ∀ a b, decode w ≠ .jalr a b) →
    step s = .next t → ¬ t.isFaulted →
      t.pc = (s.mem.length : Int) ∧ step t = .next { t with status := .faulted .programCounterOutOfBounds }

/-! ### Loader, report, assembler -/

/-- R86, R191, R190: the assembler's output is read back as the image it prints (the grammar is D8, log 11; the bound
D7, log 10). -/
def Obligations.LoaderReadsThePrintedImage : Prop :=
  ∀ image : List Word, image.length ≤ 2147483647 →
    load (some (printImage image)) = .next (State.boot image)

/-- R191: one line of the image text. Whitespace around is trimmed, and whitespace alone is blank. A sign or none and
digits, leading zeros among them, are the signed value's word, or malformed outside the 32-bit signed range. Any other
trimmed text is malformed, two texts apart on one line among them (D8, log 11). -/
def Obligations.ImageLineIsOneSignedWord : Prop :=
  ∀ before after : Line, (∀ c ∈ before, isWhite c = true) → (∀ c ∈ after, isWhite c = true) →
    readImageLine before = .blank ∧
    (∀ sign ∈ [[], ['+'], ['-']], ∀ zeros n : Nat,
      readImageLine (before ++ (sign ++ (List.replicate zeros '0' ++ Nat.toDigits 10 n)) ++ after) =
        let value : Int := if sign = ['-'] then -(n : Int) else n
        if -2147483648 ≤ value ∧ value ≤ 2147483647 then .word (wrap32 value) else .malformed) ∧
    (∀ text : Line, text ≠ [] → (∀ c ∈ text.head?, isWhite c = false) → (∀ c ∈ text.getLast?, isWhite c = false) →
      (∀ sign ∈ [[], ['+'], ['-']], ∀ digits, text = sign ++ digits →
        digits = [] ∨ ∃ c ∈ digits, ¬ ('0' ≤ c ∧ c ≤ '9')) →
      readImageLine (before ++ text ++ after) = .malformed) ∧
    (∀ first gap second : Line, first ≠ [] → (∀ c ∈ first, isWhite c = false) →
      gap ≠ [] → (∀ c ∈ gap, isWhite c = true) → second ≠ [] → (∀ c ∈ second, isWhite c = false) →
      readImageLine (before ++ (first ++ gap ++ second) ++ after) = .malformed)

/-- R191, R192: the first malformed line, counted from 1, ends the load; an input that cannot be opened ends it too
(D8, log 11). -/
def Obligations.FirstMalformedLineEndsTheLoad : Prop :=
  load none = .fault .fileOpenError ∧
  ∀ (good : List Line) (bad : Line) (rest : List Line),
    (∀ l ∈ good, readImageLine l ≠ .malformed) → readImageLine bad = .malformed →
    load (some (good ++ bad :: rest)) = .fault (.malformedInputWord (good.length + 1))

/-- R174: the report's content (signed values are D17). -/
def Obligations.ReportHoldsTheFinalState : Prop :=
  ∀ s : State, s.status ≠ .running → ∃ r, report s = some r ∧
    r.status = s.status ∧ r.count = s.count ∧ r.pc = s.pc ∧
    r.memory.length = s.mem.length ∧ (∀ i < s.mem.length, r.memory[i]? = some (s32 (s.mem.get i))) ∧
    r.registers.length = 8 ∧ ∀ i : RegIndex, r.registers[i.val]? = some (s32 (readReg s i))

/-- R175: a fault has one diagnostic, naming its kind and pc, and a non-zero exit status; `Halted` has none and exits
with 0 (D12, log 12). -/
def Obligations.FaultsExitNonZero : Prop :=
  ∀ s : State,
    (∀ k, s.status = .faulted k →
      runDiagnostic s = some { kind := k, pc := some s.pc, line := none } ∧
      ∃ n, n ≠ 0 ∧ runExitStatus s = some n) ∧
    (s.status = .halted → runDiagnostic s = none ∧ runExitStatus s = some 0)

/-- R73: the resolved third operand of `lw`, `sw` and `beq`, a literal or a label's address (a label's distance for
`beq`), lies in [-32768, 32767] and fills bits 15 to 0 of the emitted word modulo 2^16, or the statement is refused with
`OffsetOutOfRange` naming its source line, which at address `addr` is line `addr + 1`. -/
def Obligations.OffsetIsCheckedThenMasked : Prop :=
  ∀ (tab : SymbolTable) (addr : Nat) (m : Mnemonic) (ofLabel : Nat → Int) (a b operand : Token) (ra rb : RegIndex)
    (n : Int),
    ((m = .lw ∨ m = .sw) ∧ ofLabel = fun k : Nat => (k : Int)) ∨
      (m = .beq ∧ ofLabel = fun k : Nat => (k : Int) - ((addr : Int) + 1)) →
    registerOperand (addr + 1) a = .ok ra → registerOperand (addr + 1) b = .ok rb →
    valueOrLabel tab (addr + 1) operand ofLabel = .ok n →
    (-32768 ≤ n → n ≤ 32767 →
      ∃ w, encodeStatement tab addr m [a, b, operand] = .ok w ∧ ((w.toNat % 65536 : Nat) : Int) = n % 65536) ∧
    (n < -32768 ∨ 32767 < n →
      encodeStatement tab addr m [a, b, operand] = .error (.offsetOutOfRange (addr + 1)))

/-- R71, R72, R74, R75, R78: a statement whose operands resolve is assembled to a word that decodes to the instruction
of its mnemonic with those operands, each in its own place. -/
def Obligations.StatementEncodesItsOperands : Prop :=
  ∀ (tab : SymbolTable) (addr : Nat) (a b : Token) (ra rb : RegIndex),
    registerOperand (addr + 1) a = .ok ra → registerOperand (addr + 1) b = .ok rb →
    (∀ d rd, registerOperand (addr + 1) d = .ok rd →
      (∃ w, encodeStatement tab addr .add [a, b, d] = .ok w ∧ decode w = .add ra rb rd) ∧
      (∃ w, encodeStatement tab addr .nand [a, b, d] = .ok w ∧ decode w = .nand ra rb rd)) ∧
    (∀ x n, valueOrLabel tab (addr + 1) x (fun k : Nat => (k : Int)) = .ok n → -32768 ≤ n → n ≤ 32767 →
      (∃ w, encodeStatement tab addr .lw [a, b, x] = .ok w ∧ decode w = .lw ra rb n) ∧
      (∃ w, encodeStatement tab addr .sw [a, b, x] = .ok w ∧ decode w = .sw ra rb n)) ∧
    (∀ x n, valueOrLabel tab (addr + 1) x (fun k : Nat => (k : Int) - ((addr : Int) + 1)) = .ok n →
      -32768 ≤ n → n ≤ 32767 →
      ∃ w, encodeStatement tab addr .beq [a, b, x] = .ok w ∧ decode w = .beq ra rb n) ∧
    (∃ w, encodeStatement tab addr .jalr [a, b] = .ok w ∧ decode w = .jalr ra rb) ∧
    (∃ w, encodeStatement tab addr .halt [] = .ok w ∧ decode w = .halt) ∧
    (∃ w, encodeStatement tab addr .noop [] = .ok w ∧ decode w = .noop)

/-- R72, R140: a taken `beq` whose offset the assembler computed from a label lands on the label (the integer pc is D3,
log 6). -/
def Obligations.TakenBranchLandsOnItsLabel : Prop :=
  ∀ (a b : RegIndex) (addr symbolAddress : Nat) (s : State), s.pc = (addr : Int) → readReg s a = readReg s b →
    ∃ t, exec (.beq a b (branchDistance addr symbolAddress)) s = .next t ∧ t.pc = (symbolAddress : Int)

/-- R83, R60: every source line takes one address, blank or not: one word per line. -/
def Obligations.OneWordPerSourceLine : Prop :=
  ∀ (ls : List Line) (words : List Word), assemble (some ls) = .ok words → words.length = ls.length

/-- R70, R76, R83: the word of a source line is the open word of a blank line (log 14); on a line whose mnemonic is not
`.fill`, the encoding of a well-formed instruction of that mnemonic, which it decodes to; and on a `.fill` line the value
its one operand resolves to, a signed 32-bit value (D15, log 15). -/
def Obligations.AssembledWordIsInstrFillOrBlank : Prop :=
  ∀ (tab : SymbolTable) (addr : Nat) (l : Line) (w : Word), encodeLine tab addr l = .ok w →
    (parseLine l = .blank ∧ w = Config.blankLineWord) ∨
    ∃ label t operands m, parseLine l = .statement label (some t) operands ∧ mnemonicOf t = some m ∧
      ((m ≠ .fill ∧ ∃ i : Instr, i.wellFormed = true ∧ instrMnemonic i = m ∧ w = encode i ∧ decode w = i) ∨
       (m = .fill ∧ ∃ v n, operands = [v] ∧ valueOrLabel tab (addr + 1) v (fun k : Nat => (k : Int)) = .ok n ∧
         -2147483648 ≤ n ∧ n ≤ 2147483647 ∧ w = encodeFill n ∧ s32 w = n))

/-- R84: a label's second definition fails, naming its line, whether or not the label is used (the two passes are the
model's choice, log 16). -/
def Obligations.SecondDefinitionOfALabelFails : Prop :=
  ∀ (before after : List Line) (l : Line) (label : Token),
    (before.filterMap labelOf).Nodup → label ∈ before.filterMap labelOf → labelOf l = some label →
    assemble (some (before ++ l :: after)) = .error (.duplicateLabel (before.length + 1))
end

