-- ==== Sys2Proof/Laws/Decode.lean ====
section
/-! SUPPORT. The readings of a word, and the fields of an encoded word, each once. -/

namespace Sys2Proof

/-! ### Readings of a word -/

theorem signExtend16_eq_toInt (v : BitVec 16) : signExtend16 v = v.toInt := by
  have := v.isLt
  rw [signExtend16, zext32, BitVec.toInt_eq_toNat_cond]
  split <;> split <;> omega

theorem signExtend16_range (v : BitVec 16) : -32768 ≤ signExtend16 v ∧ signExtend16 v ≤ 32767 := by
  have := v.isLt
  rw [signExtend16, zext32]
  split <;> omega

theorem s32_range (w : Word) : -2147483648 ≤ s32 w ∧ s32 w ≤ 2147483647 := by
  have := w.isLt
  rw [s32, BitVec.toInt_eq_toNat_cond]
  split <;> omega

/-- A value that a word can hold survives being held. -/
theorem s32_wrap32 {n : Int} (h : -2147483648 ≤ n ∧ n ≤ 2147483647) : s32 (wrap32 n) = n := by
  rw [s32, wrap32, BitVec.toInt_ofInt]
  exact Int.bmod_eq_of_le (by omega) (by omega)

@[simp] theorem wrap32_s32 (w : Word) : wrap32 (s32 w) = w := BitVec.ofInt_toInt

/-! ### Bits of an encoded word -/

theorem testBit_fin8 (v : Fin 8) {j : Nat} (h : 3 ≤ j) : v.val.testBit j = false :=
  Nat.testBit_lt_two_pow (lt_of_lt_of_le v.isLt (Nat.pow_le_pow_right (by decide) h : 2 ^ 3 ≤ 2 ^ j))

theorem getLsbD_fieldAt (lo : Nat) (v : Fin 8) (i : Nat) :
    (fieldAt lo v).getLsbD i = (decide (i < 32) && (decide (lo ≤ i) && v.val.testBit (i - lo))) := by
  rw [fieldAt, BitVec.getLsbD_shiftLeft, BitVec.getLsbD_ofNat]
  by_cases h : i < 32
  · by_cases hl : lo ≤ i
    · simp [h, hl, show i - lo < 32 by omega]
    · simp [h, hl]
  · simp [h]

theorem getLsbD_ofInt_low (off : Int) {i : Nat} (h : i < 16) :
    (BitVec.ofInt 32 off).getLsbD i = (BitVec.ofInt 16 off).getLsbD i := by
  have : (BitVec.ofInt 16 off).toNat = (BitVec.ofInt 32 off).toNat % 2 ^ 16 := by
    rw [BitVec.toNat_ofInt, BitVec.toNat_ofInt]
    omega
  rw [BitVec.getLsbD, BitVec.getLsbD, this, Nat.testBit_mod_two_pow]
  simp [h]

theorem getLsbD_encodeOffset (off : Int) (i : Nat) :
    (encodeOffset off).getLsbD i = (decide (i < 16) && (BitVec.ofInt 16 off).getLsbD i) := by
  have hmask : (0xFFFF#32 : Word).getLsbD i = decide (i < 16) := by
    by_cases h : i < 32
    · revert h i; decide
    · rw [BitVec.getLsbD_of_ge _ _ (Nat.not_lt.mp h)]
      simp; omega
  rw [encodeOffset, BitVec.getLsbD_and, hmask]
  by_cases h : i < 16
  · rw [wrap32, getLsbD_ofInt_low off h]
    simp [h]
  · simp [h]

/-- A three-bit field read from a word is the value whose bits stand there. -/
theorem toFin_extract_eq {w : Word} {lo : Nat} {v : Fin 8}
    (h : ∀ j, j < 3 → w.getLsbD (lo + j) = v.val.testBit j) : (w.extractLsb' lo 3).toFin = v := by
  have : w.extractLsb' lo 3 = BitVec.ofFin v := by
    apply BitVec.eq_of_getLsbD_eq
    intro j hj
    rw [BitVec.getLsbD_extractLsb', h j hj]
    simp [hj, BitVec.getLsbD, BitVec.toNat]
  rw [this]

theorem offset_of_encodeOffset {w : Word} {off : Int} (hr : -32768 ≤ off ∧ off ≤ 32767)
    (h : ∀ j, j < 16 → w.getLsbD j = (BitVec.ofInt 16 off).getLsbD j) :
    signExtend16 (w.extractLsb' 0 16) = off := by
  have : w.extractLsb' 0 16 = BitVec.ofInt 16 off := by
    apply BitVec.eq_of_getLsbD_eq
    intro j hj
    rw [BitVec.getLsbD_extractLsb', Nat.zero_add, h j hj]
    simp [hj]
  rw [this, signExtend16_eq_toInt, BitVec.toInt_ofInt]
  exact Int.bmod_eq_of_le (by omega) (by omega)

theorem getLsbD_encodeHead (op a b : Fin 8) (i : Nat) (h16 : 16 ≤ i) (h : i < 32) :
    (encodeHead op a b).getLsbD i =
      ((decide (22 ≤ i) && op.val.testBit (i - 22)) || (decide (19 ≤ i) && a.val.testBit (i - 19)) ||
        b.val.testBit (i - 16)) := by
  simp only [encodeHead, BitVec.getLsbD_or, getLsbD_fieldAt, h, h16, decide_true, Bool.true_and]

theorem getLsbD_encodeHead_low (op a b : Fin 8) (i : Nat) (h16 : i < 16) :
    (encodeHead op a b).getLsbD i = false := by
  simp only [encodeHead, BitVec.getLsbD_or, getLsbD_fieldAt]
  simp [show ¬ 22 ≤ i by omega, show ¬ 19 ≤ i by omega, show ¬ 16 ≤ i by omega]

/-- The decoder reads the three head fields of an encoded word as they were put there, whatever stands in bits
15 to 0. -/
theorem decodeFields_head (op a b : Fin 8) {low : Word} (hlow : ∀ i, 16 ≤ i → low.getLsbD i = false) :
    (decodeFields (encodeHead op a b ||| low)).opcode = op ∧
    (decodeFields (encodeHead op a b ||| low)).regA = a ∧
    (decodeFields (encodeHead op a b ||| low)).regB = b := by
  refine ⟨toFin_extract_eq ?_, toFin_extract_eq ?_, toFin_extract_eq ?_⟩ <;> intro j hj <;>
    rw [BitVec.getLsbD_or, hlow _ (by omega), Bool.or_false, getLsbD_encodeHead _ _ _ _ (by omega) (by omega)]
  · rw [testBit_fin8 a (by omega), testBit_fin8 b (by omega)]
    simp
  · rw [testBit_fin8 b (by omega)]
    simp [show ¬ 22 ≤ 19 + j by omega]
  · simp [show ¬ 22 ≤ 16 + j by omega, show ¬ 19 ≤ 16 + j by omega]

theorem decodeFields_destReg (op a b d : Fin 8) :
    (decodeFields (encodeHead op a b ||| fieldAt 0 d)).destReg = d := by
  refine toFin_extract_eq fun j hj => ?_
  rw [BitVec.getLsbD_or, getLsbD_encodeHead_low _ _ _ _ (by omega), getLsbD_fieldAt]
  simp [show j < 32 by omega]

theorem decodeFields_offset (op a b : Fin 8) {off : Int} (hr : -32768 ≤ off ∧ off ≤ 32767) :
    (decodeFields (encodeHead op a b ||| encodeOffset off)).offset = off := by
  refine offset_of_encodeOffset hr fun j hj => ?_
  rw [BitVec.getLsbD_or, getLsbD_encodeHead_low _ _ _ _ hj, getLsbD_encodeOffset]
  simp [hj]

theorem fieldAt_zero_high (d : Fin 8) (i : Nat) (h : 16 ≤ i) : (fieldAt 0 d).getLsbD i = false := by
  rw [getLsbD_fieldAt, testBit_fin8 d (by omega)]
  simp

theorem encodeOffset_high (off : Int) (i : Nat) (h : 16 ≤ i) : (encodeOffset off).getLsbD i = false := by
  rw [getLsbD_encodeOffset]
  simp [show ¬ i < 16 by omega]

theorem fieldAt_opcode_eq_head (op : Fin 8) : fieldAt 22 op = encodeHead op 0 0 ||| 0#32 := by
  revert op; decide

/-- A decoded three-bit field's bits are the word's own. -/
theorem testBit_field {w : Word} {lo : Nat} {v : Fin 8} (h : (w.extractLsb' lo 3).toFin = v) (j : Nat) :
    v.val.testBit j = (decide (j < 3) && w.getLsbD (lo + j)) := by
  subst h
  rw [← BitVec.getLsbD_extractLsb']
  rfl

/-- The opcode-table form of a row (R67): a word matches under the mask 0x01C00000 exactly when its opcode is the
row's. -/
theorem opcode_eq_iff_match (w : Word) (op : Fin 8) :
    w &&& 0x01C00000#32 = fieldAt 22 op ↔ (decodeFields w).opcode = op := by
  have hmask : ∀ k < 32, (0x01C00000#32 : Word).getLsbD k = decide (22 ≤ k ∧ k < 25) := by decide
  constructor
  · intro h
    refine toFin_extract_eq fun j hj => ?_
    have hb := congrArg (fun v : Word => v.getLsbD (22 + j)) h
    simp only [BitVec.getLsbD_and, hmask _ (show 22 + j < 32 by omega), getLsbD_fieldAt] at hb
    simpa [hj, show 22 + j < 32 by omega, show 22 + j < 25 by omega] using hb
  · intro h
    apply BitVec.eq_of_getLsbD_eq
    intro k hk
    rw [getLsbD_fieldAt, testBit_field h, BitVec.getLsbD_and, hmask k hk]
    by_cases h22 : 22 ≤ k
    · rw [show 22 + (k - 22) = k by omega]
      simp [hk, h22, show k - 22 < 3 ↔ k < 25 by omega, Bool.and_comm]
    · simp [h22]

/-! ### What the decoder gives -/

/-- Everything the opcode map can do (R67): one case per opcode, with the fields the row uses. -/
theorem decode_cases (w : Word) :
    let f := decodeFields w
    (f.opcode = 0 ∧ decode w = .add f.regA f.regB f.destReg) ∨
    (f.opcode = 1 ∧ decode w = .nand f.regA f.regB f.destReg) ∨
    (f.opcode = 2 ∧ decode w = .lw f.regA f.regB f.offset) ∨
    (f.opcode = 3 ∧ decode w = .sw f.regA f.regB f.offset) ∨
    (f.opcode = 4 ∧ decode w = .beq f.regA f.regB f.offset) ∨
    (f.opcode = 5 ∧ decode w = .jalr f.regA f.regB) ∨
    (f.opcode = 6 ∧ decode w = .halt) ∨
    (f.opcode = 7 ∧ decode w = .noop) := by
  intro f
  have hd : decode w = f.toInstr := rfl
  rw [hd]
  obtain ⟨op, a, b, d, off⟩ := f
  fin_cases op <;> simp [Fields.toInstr]

theorem decodeFields_offset_range (w : Word) :
    -32768 ≤ (decodeFields w).offset ∧ (decodeFields w).offset ≤ 32767 :=
  signExtend16_range _

@[simp] theorem offsetInRange_iff (n : Int) : offsetInRange n = true ↔ -32768 ≤ n ∧ n ≤ 32767 := by
  simp [offsetInRange]

end Sys2Proof
end

