-- ==== Sys2Proof/Laws/State.lean ====
section
/-! SUPPORT. One lemma per field of State per update, so that no proof unfolds a record update. -/

namespace Sys2Proof.Machine

@[simp] theorem writeReg_x (s : State) (i : RegIndex) (v : Word) : (writeReg s i v).x = s.x.set i v := rfl
@[simp] theorem writeReg_pc (s : State) (i : RegIndex) (v : Word) : (writeReg s i v).pc = s.pc := rfl
@[simp] theorem writeReg_mem (s : State) (i : RegIndex) (v : Word) : (writeReg s i v).mem = s.mem := rfl
@[simp] theorem writeReg_status (s : State) (i : RegIndex) (v : Word) : (writeReg s i v).status = s.status := rfl
@[simp] theorem writeReg_count (s : State) (i : RegIndex) (v : Word) : (writeReg s i v).count = s.count := rfl

@[simp] theorem setPc_x (s : State) (t : Int) : (setPc s t).x = s.x := rfl
@[simp] theorem setPc_pc (s : State) (t : Int) : (setPc s t).pc = t := rfl
@[simp] theorem setPc_mem (s : State) (t : Int) : (setPc s t).mem = s.mem := rfl
@[simp] theorem setPc_status (s : State) (t : Int) : (setPc s t).status = s.status := rfl
@[simp] theorem setPc_count (s : State) (t : Int) : (setPc s t).count = s.count := rfl

@[simp] theorem setMem_x (s : State) (m : Memory) : (setMem s m).x = s.x := rfl
@[simp] theorem setMem_pc (s : State) (m : Memory) : (setMem s m).pc = s.pc := rfl
@[simp] theorem setMem_mem (s : State) (m : Memory) : (setMem s m).mem = m := rfl
@[simp] theorem setMem_status (s : State) (m : Memory) : (setMem s m).status = s.status := rfl
@[simp] theorem setMem_count (s : State) (m : Memory) : (setMem s m).count = s.count := rfl

@[simp] theorem setStatus_x (s : State) (r : RunStatus) : (setStatus s r).x = s.x := rfl
@[simp] theorem setStatus_pc (s : State) (r : RunStatus) : (setStatus s r).pc = s.pc := rfl
@[simp] theorem setStatus_mem (s : State) (r : RunStatus) : (setStatus s r).mem = s.mem := rfl
@[simp] theorem setStatus_status (s : State) (r : RunStatus) : (setStatus s r).status = r := rfl
@[simp] theorem setStatus_count (s : State) (r : RunStatus) : (setStatus s r).count = s.count := rfl

@[simp] theorem advance_x (s : State) : (advance s).x = s.x := rfl
@[simp] theorem advance_pc (s : State) : (advance s).pc = s.pc + 1 := rfl
@[simp] theorem advance_mem (s : State) : (advance s).mem = s.mem := rfl
@[simp] theorem advance_status (s : State) : (advance s).status = s.status := rfl
@[simp] theorem advance_count (s : State) : (advance s).count = s.count := rfl

@[simp] theorem bumpCount_x (s : State) : (bumpCount s).x = s.x := rfl
@[simp] theorem bumpCount_pc (s : State) : (bumpCount s).pc = s.pc := rfl
@[simp] theorem bumpCount_mem (s : State) : (bumpCount s).mem = s.mem := rfl
@[simp] theorem bumpCount_status (s : State) : (bumpCount s).status = s.status := rfl
@[simp] theorem bumpCount_count (s : State) : (bumpCount s).count = s.count + 1 := rfl

/-- R21: a register holds what was last written to it, register 0 included. -/
@[simp] theorem readReg_writeReg_self (s : State) (i : RegIndex) (v : Word) : readReg (writeReg s i v) i = v := by
  simp [readReg]

/-- R111: a write reaches one register only. -/
theorem readReg_writeReg_ne (s : State) (i j : RegIndex) (v : Word) (h : j ≠ i) :
    readReg (writeReg s i v) j = readReg s j := by
  simp [readReg, Fin.val_ne_of_ne (Ne.symm h)]

@[simp] theorem readReg_setPc (s : State) (t : Int) (j : RegIndex) : readReg (setPc s t) j = readReg s j := rfl
@[simp] theorem readReg_setMem (s : State) (m : Memory) (j : RegIndex) : readReg (setMem s m) j = readReg s j := rfl
@[simp] theorem readReg_setStatus (s : State) (r : RunStatus) (j : RegIndex) :
    readReg (setStatus s r) j = readReg s j := rfl
@[simp] theorem readReg_advance (s : State) (j : RegIndex) : readReg (advance s) j = readReg s j := rfl

@[simp] theorem readReg_bumpCount (s : State) (j : RegIndex) : readReg (bumpCount s) j = readReg s j := rfl

@[simp] theorem readReg_reset (j : RegIndex) : readReg State.reset j = 0#32 := by
  simp [readReg, State.reset]

@[simp] theorem boot_x (image : List Word) : (State.boot image).x = State.reset.x := rfl
@[simp] theorem boot_pc (image : List Word) : (State.boot image).pc = 0 := rfl
@[simp] theorem boot_mem (image : List Word) : (State.boot image).mem = Memory.ofImage image := rfl
@[simp] theorem boot_status (image : List Word) : (State.boot image).status = .running := rfl
@[simp] theorem boot_count (image : List Word) : (State.boot image).count = 0 := rfl

@[simp] theorem placeWord_x (s : State) (w : Word) : (placeWord s w).x = s.x := rfl
@[simp] theorem placeWord_pc (s : State) (w : Word) : (placeWord s w).pc = (placeAddress s : Int) := rfl
@[simp] theorem placeWord_mem (s : State) (w : Word) : (placeWord s w).mem = s.mem.place (placeAddress s) w := rfl
@[simp] theorem placeWord_status (s : State) (w : Word) : (placeWord s w).status = .running := rfl
@[simp] theorem placeWord_count (s : State) (w : Word) : (placeWord s w).count = s.count := rfl

end Sys2Proof.Machine
end

