-- ==== Sys2Proof/Laws/Memory.lean ====
section
/-! SUPPORT. The memory operations: what a read gives after a write, and that each keeps the canonical form. -/

namespace Sys2Proof.Machine

/-! ### Listed cells -/

theorem cellValue_filter_ne (a b : Nat) (h : b ≠ a) (cs : List Cell) :
    cellValue b (cs.filter (fun c => c.1 ≠ a)) = cellValue b cs := by
  induction cs with
  | nil => rfl
  | cons c cs ih =>
    by_cases hc : c.1 = a
    · have : c.1 ≠ b := fun e => h (e.symm.trans hc)
      simpa [hc, cellValue, Ne.symm h] using ih
    · simp only [ne_eq, decide_not] at ih
      simp [hc, cellValue, ih]

theorem cellValue_filter_self (a : Nat) (cs : List Cell) :
    cellValue a (cs.filter (fun c => c.1 ≠ a)) = 0#32 := by
  induction cs with
  | nil => rfl
  | cons c cs ih =>
    by_cases hc : c.1 = a
    · simpa [hc] using ih
    · simpa [hc, cellValue] using ih

theorem cellValue_insertCell_ne (a b : Nat) (v : Word) (h : b ≠ a) (cs : List Cell) :
    cellValue b (insertCell a v cs) = cellValue b cs := by
  induction cs with
  | nil => simp [insertCell, cellValue, Ne.symm h]
  | cons c cs ih =>
    by_cases hc : a < c.1
    · simp [insertCell, hc, cellValue, Ne.symm h]
    · simp [insertCell, hc, cellValue, ih]

theorem cellValue_insertCell_self (a : Nat) (v : Word) (cs : List Cell) (h : ∀ c ∈ cs, c.1 ≠ a) :
    cellValue a (insertCell a v cs) = v := by
  induction cs with
  | nil => simp [insertCell, cellValue]
  | cons c cs ih =>
    have hc : c.1 ≠ a := h c (by simp)
    by_cases hlt : a < c.1
    · simp [insertCell, hlt, cellValue]
    · simpa [insertCell, hlt, cellValue, hc] using ih (fun d hd => h d (by simp [hd]))

theorem mem_insertCell {a : Nat} {v : Word} {cs : List Cell} {d : Cell} :
    d ∈ insertCell a v cs ↔ d = (a, v) ∨ d ∈ cs := by
  induction cs with
  | nil => simp [insertCell]
  | cons c cs ih =>
    by_cases h : a < c.1
    · simp [insertCell, h]
    · simp [insertCell, h, ih, or_left_comm]

theorem pairwise_insertCell {a : Nat} {v : Word} {cs : List Cell}
    (hp : cs.Pairwise (fun c d => c.1 < d.1)) (hne : ∀ c ∈ cs, c.1 ≠ a) :
    (insertCell a v cs).Pairwise (fun c d => c.1 < d.1) := by
  induction cs with
  | nil => simp [insertCell]
  | cons c cs ih =>
    obtain ⟨hc, hcs⟩ := List.pairwise_cons.mp hp
    by_cases h : a < c.1
    · rw [insertCell, if_pos h]
      refine List.Pairwise.cons ?_ hp
      intro d hd
      rcases List.mem_cons.mp hd with rfl | hd
      · exact h
      · exact h.trans (hc d hd)
    · have hca : c.1 < a := lt_of_le_of_ne (not_lt.mp h) (hne c (by simp))
      simp only [insertCell, h, if_false]
      refine List.Pairwise.cons ?_ (ih hcs fun d hd => hne d (by simp [hd]))
      intro d hd
      rcases mem_insertCell.mp hd with rfl | hd
      · exact hca
      · exact hc d hd

/-! ### Reads and writes of a memory -/

@[simp] theorem set_length (m : Memory) (a : Nat) (v : Word) : (m.set a v).length = m.length := rfl

theorem get_set_self (m : Memory) (a : Nat) (v : Word) : (m.set a v).get a = v := by
  by_cases hv : v = 0#32
  · simpa [Memory.get, Memory.set, updateCells, hv] using cellValue_filter_self a m.cells
  · simpa [Memory.get, Memory.set, updateCells, hv] using
      cellValue_insertCell_self a v (m.cells.filter (fun c => c.1 ≠ a)) (by simp)

theorem get_set_ne (m : Memory) (a b : Nat) (v : Word) (h : b ≠ a) : (m.set a v).get b = m.get b := by
  by_cases hv : v = 0#32
  · simpa [Memory.get, Memory.set, updateCells, hv] using cellValue_filter_ne a b h m.cells
  · simpa [Memory.get, Memory.set, updateCells, hv, cellValue_insertCell_ne a b v h] using
      cellValue_filter_ne a b h m.cells

theorem set_wf {m : Memory} (hm : m.wf) {a : Nat} (ha : a < m.length) (v : Word) : (m.set a v).wf := by
  obtain ⟨hp, hc⟩ := hm
  have hp' : (m.cells.filter (fun c => c.1 ≠ a)).Pairwise (fun c d => c.1 < d.1) := hp.filter _
  by_cases hv : v = 0#32
  · refine ⟨by simpa [Memory.set, updateCells, hv] using hp', fun c h => hc c ?_⟩
    simp only [Memory.set, updateCells, hv, if_true] at h
    exact (List.mem_filter.mp h).1
  · refine ⟨?_, fun c h => ?_⟩
    · simpa [Memory.set, updateCells, hv] using pairwise_insertCell (v := v) hp' (by simp)
    · simp only [Memory.set, updateCells, hv, if_false] at h
      rcases mem_insertCell.mp h with rfl | h
      · exact ⟨hv, ha⟩
      · exact hc c (List.mem_filter.mp h).1

theorem place_wf {m : Memory} (hm : m.wf) (a : Nat) (w : Word) : (m.place a w).wf := by
  refine set_wf (m := { m with length := max m.length (a + 1) }) ⟨hm.1, fun c hc => ⟨(hm.2 c hc).1, ?_⟩⟩ ?_ w
  · exact lt_of_lt_of_le (hm.2 c hc).2 (le_max_left _ _)
  · exact lt_of_lt_of_le (Nat.lt_succ_self a) (le_max_right _ _)

@[simp] theorem place_length (m : Memory) (a : Nat) (w : Word) :
    (m.place a w).length = max m.length (a + 1) := rfl

theorem get_place_self (m : Memory) (a : Nat) (w : Word) : (m.place a w).get a = w :=
  get_set_self _ a w

/-! ### The primitives of R42 -/

theorem inBounds_iff (m : Memory) (a : Int) : m.inBounds a = true ↔ 0 ≤ a ∧ a < (m.length : Int) := by
  simp [Memory.inBounds]

@[simp] theorem set_inBounds (m : Memory) (a : Nat) (v : Word) (b : Int) :
    (m.set a v).inBounds b = m.inBounds b := rfl

theorem memRead_eq_some {m : Memory} {a : Int} {v : Word} :
    memRead m a = some v ↔ m.inBounds a = true ∧ m.get a.toNat = v := by
  simp [memRead]

theorem memRead_eq_none {m : Memory} {a : Int} : memRead m a = none ↔ m.inBounds a = false := by
  simp [memRead]

theorem memWrite_eq_some {m m' : Memory} {a : Int} {v : Word} :
    memWrite m a v = some m' ↔ m.inBounds a = true ∧ m.set a.toNat v = m' := by
  simp [memWrite]

theorem memWrite_eq_none {m : Memory} {a : Int} {v : Word} : memWrite m a v = none ↔ m.inBounds a = false := by
  simp [memWrite]

/-- R50: a read gives the last word written at its address, and every other word is as it was. -/
theorem memRead_set (m : Memory) (a : Int) (v : Word) (hb : m.inBounds a = true) (c : Int) :
    memRead (m.set a.toNat v) c = if c = a then some v else memRead m c := by
  have h := (inBounds_iff m a).mp hb
  by_cases hc : c = a
  · subst hc; simp [memRead, hb, get_set_self]
  · rw [if_neg hc, memRead, memRead, set_inBounds]
    split
    · next h' =>
      have := (inBounds_iff m c).mp h'
      rw [get_set_ne _ _ _ _ (by omega)]
    · rfl

/-- Everything a write can do: it was inside the memory, and the result has the same length and bounds. -/
theorem memWrite_length {m m' : Memory} {a : Int} {v : Word} (h : memWrite m a v = some m') :
    m'.length = m.length := by
  obtain ⟨-, rfl⟩ := memWrite_eq_some.mp h
  rfl

theorem memWrite_wf {m m' : Memory} {a : Int} {v : Word} (hm : m.wf) (h : memWrite m a v = some m') : m'.wf := by
  obtain ⟨hb, rfl⟩ := memWrite_eq_some.mp h
  have := (inBounds_iff m a).mp hb
  exact set_wf hm (by omega) v

/-! ### The memory of an image -/

theorem imageCells_ge {a : Nat} {ws : List Word} {c : Cell} (h : c ∈ imageCells a ws) : a ≤ c.1 := by
  induction ws generalizing a with
  | nil => simp [imageCells] at h
  | cons w ws ih =>
    by_cases hw : w = 0#32
    · simp only [imageCells, hw, if_true] at h
      exact (Nat.le_succ a).trans (ih h)
    · simp only [imageCells, hw, if_false] at h
      rcases List.mem_cons.mp h with rfl | h
      · exact le_rfl
      · exact (Nat.le_succ a).trans (ih h)

theorem imageCells_mem {a : Nat} {ws : List Word} {c : Cell} (h : c ∈ imageCells a ws) :
    c.2 ≠ 0#32 ∧ c.1 < a + ws.length := by
  induction ws generalizing a with
  | nil => simp [imageCells] at h
  | cons w ws ih =>
    by_cases hw : w = 0#32
    · simp only [imageCells, hw, if_true] at h
      have := ih h
      exact ⟨this.1, by simp only [List.length_cons]; omega⟩
    · simp only [imageCells, hw, if_false] at h
      rcases List.mem_cons.mp h with rfl | h
      · exact ⟨hw, by simp⟩
      · have := ih h
        exact ⟨this.1, by simp only [List.length_cons]; omega⟩

theorem imageCells_pairwise (a : Nat) (ws : List Word) :
    (imageCells a ws).Pairwise (fun c d => c.1 < d.1) := by
  induction ws generalizing a with
  | nil => simp [imageCells]
  | cons w ws ih =>
    by_cases hw : w = 0#32
    · simpa [imageCells, hw] using ih (a + 1)
    · simp only [imageCells, hw, if_false]
      exact List.Pairwise.cons (fun d hd => imageCells_ge hd) (ih (a + 1))

theorem cellValue_eq_zero_of_lt {a : Nat} {cs : List Cell} (h : ∀ c ∈ cs, a < c.1) : cellValue a cs = 0#32 := by
  induction cs with
  | nil => rfl
  | cons c cs ih =>
    have : c.1 ≠ a := (h c (by simp)).ne'
    simpa [cellValue, this] using ih (fun d hd => h d (by simp [hd]))

theorem cellValue_imageCells (a i : Nat) (ws : List Word) :
    cellValue (a + i) (imageCells a ws) = ws.getD i 0#32 := by
  induction ws generalizing a i with
  | nil => simp [imageCells, cellValue]
  | cons w ws ih =>
    cases i with
    | zero =>
      by_cases hw : w = 0#32
      · simpa [imageCells, hw] using cellValue_eq_zero_of_lt fun c hc => (imageCells_ge (a := a + 1) hc)
      · simp [imageCells, hw, cellValue]
    | succ i =>
      have := ih (a + 1) i
      rw [show a + 1 + i = a + (i + 1) by omega] at this
      by_cases hw : w = 0#32
      · simpa [imageCells, hw] using this
      · simpa [imageCells, hw, cellValue] using this

@[simp] theorem ofImage_length (image : List Word) : (Memory.ofImage image).length = image.length := rfl

theorem ofImage_wf (image : List Word) : (Memory.ofImage image).wf :=
  ⟨imageCells_pairwise 0 image, fun c hc => by simpa [Memory.ofImage] using imageCells_mem hc⟩

theorem get_ofImage (image : List Word) (i : Nat) : (Memory.ofImage image).get i = image.getD i 0#32 := by
  simpa [Memory.get, Memory.ofImage] using cellValue_imageCells 0 i image

theorem reset_mem_wf : State.reset.mem.wf := by decide

/-- Reset is the boot state of the empty image (log 3). -/
theorem boot_nil : State.boot [] = State.reset := rfl

end Sys2Proof.Machine
end

