-- ==== Sys2Proof/Laws/Ops.lean ====
section
/-! SUPPORT. What retiring, fault entry and each meaning can do: one inversion lemma each, so that no proof
unfolds a meaning. -/

namespace Sys2Proof.Machine

/-- Two outcomes that are next states are equal exactly when the states are. -/
@[simp] theorem next_inj {s t : State} :
    (Host.Outcome.next s : Host.Outcome State Fault Refusal) = .next t ↔ s = t := by
  constructor
  · rintro ⟨⟩; rfl
  · rintro rfl; rfl

theorem retire_eq_next {s t : State} : retire s = .next t ↔ t = bumpCount s := by
  simp [retire, eq_comm]

theorem raiseFault_eq_next {k : FaultKind} {s t : State} :
    raiseFault k s = .next t ↔ t = setStatus s (.faulted k) := by
  simp [raiseFault, eq_comm]

theorem execAdd_eq_next {a b d : RegIndex} {s t : State} : exec (.add a b d) s = .next t ↔
    t = bumpCount (advance (writeReg s d (aluAdd (readReg s a) (readReg s b)))) :=
  retire_eq_next

theorem execNand_eq_next {a b d : RegIndex} {s t : State} : exec (.nand a b d) s = .next t ↔
    t = bumpCount (advance (writeReg s d (aluNand (readReg s a) (readReg s b)))) :=
  retire_eq_next

theorem execLw_eq_next {a b : RegIndex} {off : Int} {s t : State} : exec (.lw a b off) s = .next t ↔
    (s.mem.inBounds (effectiveAddress s a off) = true ∧
      t = bumpCount (advance (writeReg s b (s.mem.get (effectiveAddress s a off).toNat)))) ∨
    (s.mem.inBounds (effectiveAddress s a off) = false ∧ t = setStatus s (.faulted .memoryOutOfBounds)) := by
  by_cases h : s.mem.inBounds (effectiveAddress s a off) = true
  · simp [exec, execLw, memRead, h, retire_eq_next]
  · simp [exec, execLw, memRead, h, raiseFault_eq_next]

theorem execSw_eq_next {a b : RegIndex} {off : Int} {s t : State} : exec (.sw a b off) s = .next t ↔
    (s.mem.inBounds (effectiveAddress s a off) = true ∧
      t = bumpCount (advance (setMem s (s.mem.set (effectiveAddress s a off).toNat (readReg s b))))) ∨
    (s.mem.inBounds (effectiveAddress s a off) = false ∧ t = setStatus s (.faulted .memoryOutOfBounds)) := by
  by_cases h : s.mem.inBounds (effectiveAddress s a off) = true
  · simp [exec, execSw, memWrite, h, retire_eq_next]
  · simp [exec, execSw, memWrite, h, raiseFault_eq_next]

theorem execBeq_eq_next {a b : RegIndex} {off : Int} {s t : State} : exec (.beq a b off) s = .next t ↔
    t = bumpCount (setPc s (if readReg s a = readReg s b then branchTarget s off else s.pc + 1)) := by
  by_cases h : readReg s a = readReg s b
  · simp [exec, execBeq, patternsEqual, h, retire_eq_next]
  · simp [exec, execBeq, patternsEqual, h, retire_eq_next, advance]

theorem execJalr_eq_next {a b : RegIndex} {s t : State} : exec (.jalr a b) s = .next t ↔
    t = bumpCount (writeReg (setPc s (jumpTarget s a)) b (linkWord s)) :=
  retire_eq_next

theorem execHalt_eq_next {s t : State} : exec .halt s = .next t ↔
    t = bumpCount (setStatus (advance s) .halted) :=
  retire_eq_next

theorem execNoop_eq_next {s t : State} : exec .noop s = .next t ↔
    t = bumpCount (advance s) :=
  retire_eq_next

/-- Whether the instruction's own bounds check stops it (R130); no other instruction has one. -/
def dataFault (i : Instr) (s : State) : Prop :=
  match i with
  | .lw a _ off => s.mem.inBounds (effectiveAddress s a off) = false
  | .sw a _ off => s.mem.inBounds (effectiveAddress s a off) = false
  | .add _ _ _ | .nand _ _ _ | .beq _ _ _ | .jalr _ _ | .halt | .noop => False

/-- The next pc of an instruction that retires: the table of R25. -/
def retiredPc (i : Instr) (s : State) : Int :=
  match i with
  | .beq a b off => if readReg s a = readReg s b then branchTarget s off else s.pc + 1
  | .jalr a _ => jumpTarget s a
  | .add _ _ _ | .nand _ _ _ | .lw _ _ _ | .sw _ _ _ | .halt | .noop => s.pc + 1

/-- The memory after an instruction that retires. -/
def retiredMem (i : Instr) (s : State) : Memory :=
  match i with
  | .sw a b off => s.mem.set (effectiveAddress s a off).toNat (readReg s b)
  | .add _ _ _ | .nand _ _ _ | .lw _ _ _ | .beq _ _ _ | .jalr _ _ | .halt | .noop => s.mem

/-- The run status after an instruction that retires. -/
def retiredStatus (i : Instr) (s : State) : RunStatus :=
  match i with
  | .halt => .halted
  | .add _ _ _ | .nand _ _ _ | .lw _ _ _ | .sw _ _ _ | .beq _ _ _ | .jalr _ _ | .noop => s.status

/-- A running machine that retires an instruction goes on, but for `halt` (R29). -/
theorem retiredStatus_of_running {i : Instr} {s : State} (h : s.status = .running) :
    retiredStatus i s = if i = .halt then .halted else .running := by
  cases i <;> simp [retiredStatus, h]

/-- Everything an instruction can do: its bounds check stops it and only the run status changes, or it retires and
each field is as its table says, with at most the destination register written. -/
theorem exec_cases {i : Instr} {s t : State} (h : exec i s = .next t) :
    (dataFault i s ∧ t = setStatus s (.faulted .memoryOutOfBounds)) ∨
    (¬ dataFault i s ∧ t.pc = retiredPc i s ∧ t.mem = retiredMem i s ∧ t.status = retiredStatus i s ∧
      t.count = s.count + 1 ∧ ∀ r, i.destReg ≠ some r → readReg t r = readReg s r) := by
  cases i with
  | add a b d =>
    obtain rfl := execAdd_eq_next.mp h
    exact .inr ⟨id, rfl, rfl, rfl, rfl, fun r hr => readReg_writeReg_ne s d r _ fun e => hr (by rw [e]; rfl)⟩
  | nand a b d =>
    obtain rfl := execNand_eq_next.mp h
    exact .inr ⟨id, rfl, rfl, rfl, rfl, fun r hr => readReg_writeReg_ne s d r _ fun e => hr (by rw [e]; rfl)⟩
  | lw a b off =>
    rcases execLw_eq_next.mp h with ⟨hb, rfl⟩ | ⟨hb, rfl⟩
    · exact .inr ⟨by simp [dataFault, hb], rfl, rfl, rfl, rfl,
        fun r hr => readReg_writeReg_ne s b r _ fun e => hr (by rw [e]; rfl)⟩
    · exact .inl ⟨hb, rfl⟩
  | sw a b off =>
    rcases execSw_eq_next.mp h with ⟨hb, rfl⟩ | ⟨hb, rfl⟩
    · exact .inr ⟨by simp [dataFault, hb], rfl, rfl, rfl, rfl, fun _ _ => rfl⟩
    · exact .inl ⟨hb, rfl⟩
  | beq a b off =>
    obtain rfl := execBeq_eq_next.mp h
    exact .inr ⟨id, rfl, rfl, rfl, rfl, fun _ _ => rfl⟩
  | jalr a b =>
    obtain rfl := execJalr_eq_next.mp h
    exact .inr ⟨id, rfl, rfl, rfl, rfl,
      fun r hr => readReg_writeReg_ne (setPc s _) b r _ fun e => hr (by rw [e]; rfl)⟩
  | halt =>
    obtain rfl := execHalt_eq_next.mp h
    exact .inr ⟨id, rfl, rfl, rfl, rfl, fun _ _ => rfl⟩
  | noop =>
    obtain rfl := execNoop_eq_next.mp h
    exact .inr ⟨id, rfl, rfl, rfl, rfl, fun _ _ => rfl⟩

/-- No instruction is refused and none faults in the host's sense. -/
theorem exec_next (i : Instr) (s : State) : ∃ t, exec i s = .next t := by
  cases i with
  | lw a b off =>
    by_cases h : s.mem.inBounds (effectiveAddress s a off) = true
    · exact ⟨_, execLw_eq_next.mpr (.inl ⟨h, rfl⟩)⟩
    · exact ⟨_, execLw_eq_next.mpr (.inr ⟨by simpa using h, rfl⟩)⟩
  | sw a b off =>
    by_cases h : s.mem.inBounds (effectiveAddress s a off) = true
    · exact ⟨_, execSw_eq_next.mpr (.inl ⟨h, rfl⟩)⟩
    · exact ⟨_, execSw_eq_next.mpr (.inr ⟨by simpa using h, rfl⟩)⟩
  | beq a b off => exact ⟨_, execBeq_eq_next.mpr rfl⟩
  | add a b d => exact ⟨_, rfl⟩
  | nand a b d => exact ⟨_, rfl⟩
  | jalr a b => exact ⟨_, rfl⟩
  | halt => exact ⟨_, rfl⟩
  | noop => exact ⟨_, rfl⟩

/-- The length of the memory never changes (R41). -/
@[simp] theorem retiredMem_length (i : Instr) (s : State) : (retiredMem i s).length = s.mem.length := by
  cases i <;> rfl

theorem retiredMem_wf {i : Instr} {s : State} (hm : s.mem.wf) (h : ¬ dataFault i s) : (retiredMem i s).wf := by
  cases i with
  | sw a b off =>
    have hb : s.mem.inBounds (effectiveAddress s a off) = true := by simpa [dataFault] using h
    have := (inBounds_iff _ _).mp hb
    exact set_wf hm (by omega) _
  | add _ _ _ => exact hm
  | nand _ _ _ => exact hm
  | lw _ _ _ => exact hm
  | beq _ _ _ => exact hm
  | jalr _ _ => exact hm
  | halt => exact hm
  | noop => exact hm

end Sys2Proof.Machine
end

