-- ==== Sys2Proof/Laws/PerInstr.lean ====
section
/-! SUPPORT. Families of facts about the instruction as written, one lemma per constructor (LAWS.json). -/

namespace Sys2Proof.Laws

/-- R70: the encoder puts the opcode at bits 24 to 22 and leaves bits 31 to 25 at 0, whatever the operands. -/
def EncodedWord.Statement (i : Instr) : Prop :=
  (decodeFields (encode i)).opcode = i.opcode ∧ ∀ k, 25 ≤ k → (encode i).getLsbD k = false

theorem encodeHead_high (op a b : Fin 8) (k : Nat) (h : 25 ≤ k) : (encodeHead op a b).getLsbD k = false := by
  simp only [encodeHead, BitVec.getLsbD_or, getLsbD_fieldAt]
  simp [testBit_fin8 op (show 3 ≤ k - 22 by omega), testBit_fin8 a (show 3 ≤ k - 19 by omega),
    testBit_fin8 b (show 3 ≤ k - 16 by omega)]

theorem encodedWord_of_head (op a b : Fin 8) {low : Word} (hlow : ∀ i, 16 ≤ i → low.getLsbD i = false) :
    (decodeFields (encodeHead op a b ||| low)).opcode = op ∧
      ∀ k, 25 ≤ k → (encodeHead op a b ||| low).getLsbD k = false :=
  ⟨(decodeFields_head op a b hlow).1, fun k hk => by
    rw [BitVec.getLsbD_or, encodeHead_high op a b k hk, hlow k (by omega)]
    rfl⟩

theorem EncodedWord.add (a b d : RegIndex) : EncodedWord.Statement (.add a b d) :=
  encodedWord_of_head 0 a b (fieldAt_zero_high d)

theorem EncodedWord.nand (a b d : RegIndex) : EncodedWord.Statement (.nand a b d) :=
  encodedWord_of_head 1 a b (fieldAt_zero_high d)

theorem EncodedWord.lw (a b : RegIndex) (off : Int) : EncodedWord.Statement (.lw a b off) :=
  encodedWord_of_head 2 a b (encodeOffset_high off)

theorem EncodedWord.sw (a b : RegIndex) (off : Int) : EncodedWord.Statement (.sw a b off) :=
  encodedWord_of_head 3 a b (encodeOffset_high off)

theorem EncodedWord.beq (a b : RegIndex) (off : Int) : EncodedWord.Statement (.beq a b off) :=
  encodedWord_of_head 4 a b (encodeOffset_high off)

theorem EncodedWord.jalr (a b : RegIndex) : EncodedWord.Statement (.jalr a b) := by
  have h := encodedWord_of_head 5 a b (low := 0#32) (by simp)
  rw [BitVec.or_zero] at h
  exact h

theorem EncodedWord.halt : EncodedWord.Statement .halt := by
  have h := encodedWord_of_head 6 0 0 (low := 0#32) (by simp)
  rw [← fieldAt_opcode_eq_head] at h
  exact h

theorem EncodedWord.noop : EncodedWord.Statement .noop := by
  have h := encodedWord_of_head 7 0 0 (low := 0#32) (by simp)
  rw [← fieldAt_opcode_eq_head] at h
  exact h

end Sys2Proof.Laws
end

