-- ==== Sys2Proof/Laws/Step.lean ====
section
/-! SUPPORT. What a step and a run can do, said once. -/

namespace Sys2Proof.Machine

theorem fetch_eq_some {s : State} {w : Word} :
    fetch s = some w ↔ (0 ≤ s.pc ∧ s.pc < (s.mem.length : Int)) ∧ s.mem.get s.pc.toNat = w := by
  rw [fetch, memRead_eq_some, inBounds_iff]

theorem fetch_eq_none {s : State} : fetch s = none ↔ ¬ (0 ≤ s.pc ∧ s.pc < (s.mem.length : Int)) := by
  rw [fetch, memRead_eq_none, ← inBounds_iff, Bool.not_eq_true]

/-- A next state comes of a running state, by the fetch check's fault or by the fetched instruction. -/
theorem step_eq_next {s t : State} : step s = .next t ↔
    s.status = .running ∧
      ((fetch s = none ∧ t = setStatus s (.faulted .programCounterOutOfBounds)) ∨
        ∃ w, fetch s = some w ∧ exec (decode w) s = .next t) := by
  rcases hs : s.status with _ | _ | k
  · rcases hf : fetch s with _ | w
    · simp [step, hs, hf, raiseFault_eq_next]
    · simp [step, hs, hf]
  · simp [step, hs]
  · simp [step, hs]

/-- Everything a step can do: the fetch check stops it, the bounds check stops it, or the fetched instruction retires. -/
theorem step_cases {s t : State} (h : step s = .next t) : s.status = .running ∧
    ((fetch s = none ∧ t = setStatus s (.faulted .programCounterOutOfBounds)) ∨
      ∃ w, fetch s = some w ∧
        ((dataFault (decode w) s ∧ t = setStatus s (.faulted .memoryOutOfBounds)) ∨
         (¬ dataFault (decode w) s ∧ t.pc = retiredPc (decode w) s ∧ t.mem = retiredMem (decode w) s ∧
          t.status = retiredStatus (decode w) s ∧ t.count = s.count + 1 ∧
          ∀ r, (decode w).destReg ≠ some r → readReg t r = readReg s r))) := by
  obtain ⟨hs, h | ⟨w, hw, h⟩⟩ := step_eq_next.mp h
  · exact ⟨hs, .inl h⟩
  · exact ⟨hs, .inr ⟨w, hw, exec_cases h⟩⟩

/-- The offset of a fetched instruction is one the decoder gives. -/
theorem decode_offset_range {w : Word} {a b : RegIndex} {off : Int}
    (h : decode w = .lw a b off ∨ decode w = .sw a b off ∨ decode w = .beq a b off) :
    -32768 ≤ off ∧ off ≤ 32767 := by
  have hr := decodeFields_offset_range w
  rcases decode_cases w with ⟨-, hd⟩ | ⟨-, hd⟩ | ⟨-, hd⟩ | ⟨-, hd⟩ | ⟨-, hd⟩ | ⟨-, hd⟩ | ⟨-, hd⟩ | ⟨-, hd⟩ <;>
    rw [hd] at h <;> simp at h <;> obtain ⟨-, -, rfl⟩ := h <;> exact hr

theorem runSteps_succ_of_next {s t : State} (h : step s = .next t) (n : Nat) :
    runSteps (n + 1) s = runSteps n t := by
  simp [runSteps, h]

/-- A state that no step leaves stays as it is for any number of steps. -/
theorem runSteps_of_status_ne {s : State} (h : s.status ≠ .running) (n : Nat) : runSteps n s = s := by
  cases n with
  | zero => rfl
  | succ n =>
    rcases hs : s.status with _ | _ | k
    · exact absurd hs h
    · simp [runSteps, step, hs]
    · simp [runSteps, step, hs]

/-- A run is its first step and the run from there. -/
theorem runSteps_succ (n : Nat) (s : State) :
    runSteps (n + 1) s = match step s with | .next t => runSteps n t | .fault _ => s | .refused _ => s := rfl

theorem placeAddress_lt (s : State) : placeAddress s < Config.maxWords := by
  unfold placeAddress
  split
  · omega
  · decide

theorem fetch_placeWord (s : State) (w : Word) : fetch (placeWord s w) = some w := by
  refine fetch_eq_some.mpr ⟨⟨by simp, by simp⟩, by simp [get_place_self]⟩

end Sys2Proof.Machine
end

