-- ==== Sys2Proof/Laws/Text.lean ====
section
/-! SUPPORT. Printed decimals are read back as what was printed. -/

namespace Sys2Proof.Machine

/-- What `parseDigits` reads (R191, R82): one or more decimal digits, and their value. -/
theorem parseDigits_eq_some {t : Token} {n : Nat} :
    parseDigits t = some n ↔ t ≠ [] ∧ (∀ c ∈ t, c.isDigit = true) ∧ Nat.ofDigitChars 10 t 0 = n := by
  simp [parseDigits, and_assoc]

/-- Leading zeros change no value. -/
theorem parseDigits_zeros_toDigits (zeros n : Nat) :
    parseDigits (List.replicate zeros '0' ++ Nat.toDigits 10 n) = some n := by
  refine parseDigits_eq_some.mpr ⟨by simp [Nat.toDigits_ne_nil], fun c hc => ?_, ?_⟩
  · rcases List.mem_append.mp hc with hc | hc
    · obtain ⟨-, rfl⟩ := List.mem_replicate.mp hc
      decide
    · exact Nat.isDigit_of_mem_toDigits (by decide) (by decide) hc
  · rw [Nat.ofDigitChars_append, Nat.ofDigitChars_replicate_zero, Nat.mul_zero,
      Nat.ofDigitChars_toDigits (by decide) (by decide)]

theorem parseDigits_toDigits (n : Nat) : parseDigits (Nat.toDigits 10 n) = some n :=
  parseDigits_zeros_toDigits 0 n

/-! ### The three forms of a signed decimal -/

@[simp] theorem parseDecimal_plus (t : Token) :
    parseDecimal ('+' :: t) = (parseDigits t).map (fun n : Nat => (n : Int)) := rfl

@[simp] theorem parseDecimal_minus (t : Token) :
    parseDecimal ('-' :: t) = (parseDigits t).map (fun n : Nat => -(n : Int)) := rfl

theorem parseDecimal_of_digits {t : Token} {n : Nat} (h : parseDigits t = some n) : parseDecimal t = some (n : Int) := by
  obtain ⟨-, hd, -⟩ := parseDigits_eq_some.mp h
  unfold parseDecimal
  split
  · exact absurd (hd '+' (by simp)) (by decide)
  · exact absurd (hd '-' (by simp)) (by decide)
  · rw [h, Option.map_some]

/-- Nothing but a sign or none and one or more digits is read. -/
theorem parseDecimal_form {t : Token} {n : Int} (h : parseDecimal t = some n) :
    ∃ sign ∈ [[], ['+'], ['-']], ∃ digits, t = sign ++ digits ∧ digits ≠ [] ∧ ∀ c ∈ digits, c.isDigit = true := by
  unfold parseDecimal at h
  split at h
  all_goals
    obtain ⟨k, hk, -⟩ := Option.map_eq_some_iff.mp h
    obtain ⟨hne, hd, -⟩ := parseDigits_eq_some.mp hk
  · exact ⟨['+'], by simp, _, rfl, hne, hd⟩
  · exact ⟨['-'], by simp, _, rfl, hne, hd⟩
  · exact ⟨[], by simp, _, rfl, hne, hd⟩

theorem digit_not_white {c : Char} (h : c.isDigit = true) : isWhite c = false := by
  simp only [Char.isDigit, Bool.and_eq_true, decide_eq_true_eq] at h
  simp only [isWhite, Char.isWhitespace, Bool.or_eq_false_iff, decide_eq_false_iff_not]
  refine ⟨⟨⟨?_, ?_⟩, ?_⟩, ?_⟩ <;> rintro rfl <;> exact absurd h.1 (by decide)

theorem printInt_not_white (n : Int) : ∀ c ∈ printInt n, isWhite c = false := by
  intro c hc
  have hd : ∀ c ∈ Nat.toDigits 10 n.natAbs, isWhite c = false := fun c hc =>
    digit_not_white (Nat.isDigit_of_mem_toDigits (by decide) (by decide) hc)
  unfold printInt at hc
  split at hc
  · rcases List.mem_cons.mp hc with rfl | hc
    · decide
    · exact hd c hc
  · exact hd c hc

theorem printInt_ne_nil (n : Int) : printInt n ≠ [] := by
  unfold printInt
  split
  · simp
  · exact Nat.toDigits_ne_nil

theorem dropWhile_of_none {l : Line} (h : ∀ c ∈ l, isWhite c = false) : l.dropWhile isWhite = l := by
  cases l with
  | nil => rfl
  | cons c cs => simp [List.dropWhile, h c (by simp)]

theorem trim_of_none {l : Line} (h : ∀ c ∈ l, isWhite c = false) : trim l = l := by
  rw [trim, dropWhile_of_none h, dropWhile_of_none (by simpa using h), List.reverse_reverse]

theorem parseDecimal_printInt (n : Int) : parseDecimal (printInt n) = some n := by
  unfold printInt
  split
  · next h =>
    rw [parseDecimal_minus, parseDigits_toDigits, Option.map_some]
    congr 1
    omega
  · next h =>
    rw [parseDecimal_of_digits (parseDigits_toDigits _)]
    congr 1
    omega

/-- R86 and R191 agree on one word: the loader reads a printed word as that word. -/
theorem readImageLine_printWord (w : Word) : readImageLine (printWord w) = .word w := by
  have hr := s32_range w
  rw [readImageLine, printWord, trim_of_none (printInt_not_white _), parseDecimal_printInt]
  simp [printInt_ne_nil, fitsWord, hr]

/-! ### Results that may fail -/

/-- A chain that succeeds succeeds at each part. -/
theorem bind_eq_ok {ε α β : Type} {x : Except ε α} {f : α → Except ε β} {b : β} :
    x.bind f = .ok b ↔ ∃ a, x = .ok a ∧ f a = .ok b := by
  cases x with
  | error e => exact ⟨fun h => (by cases h), fun ⟨_, h, _⟩ => by cases h⟩
  | ok a => exact ⟨fun h => ⟨a, rfl, h⟩, fun ⟨_, h, h'⟩ => by cases h; exact h'⟩

theorem map_eq_ok {ε α β : Type} {x : Except ε α} {f : α → β} {b : β} :
    x.map f = .ok b ↔ ∃ a, x = .ok a ∧ f a = b := by
  cases x with
  | error e => exact ⟨fun h => (by cases h), fun ⟨_, h, _⟩ => by cases h⟩
  | ok a => exact ⟨fun h => ⟨a, rfl, by cases h; rfl⟩, fun ⟨_, h, h'⟩ => by cases h; rw [← h']; rfl⟩

/-- A resolved offset that passed the check of R73 lies in its range. -/
theorem checkOffset_eq_ok {line : Nat} {n off : Int} (h : checkOffset line n = .ok off) :
    off = n ∧ -32768 ≤ off ∧ off ≤ 32767 := by
  unfold checkOffset at h
  split at h
  · next hr =>
    cases h
    exact ⟨rfl, (offsetInRange_iff _).mp hr⟩
  · cases h

/-! ### Whitespace around a text -/

theorem dropWhile_white_append {before : Line} (h : ∀ c ∈ before, isWhite c = true) (l : Line) :
    (before ++ l).dropWhile isWhite = l.dropWhile isWhite := by
  induction before with
  | nil => rfl
  | cons c cs ih =>
    rw [List.cons_append, List.dropWhile_cons_of_pos (h c (by simp))]
    exact ih fun d hd => h d (by simp [hd])

theorem trim_of_white {l : Line} (h : ∀ c ∈ l, isWhite c = true) : trim l = [] := by
  have hd := dropWhile_white_append h []
  rw [List.append_nil] at hd
  rw [trim, hd]
  rfl

theorem dropWhile_append_of_head {l : Line} (hne : l ≠ []) (h : ∀ c ∈ l.head?, isWhite c = false) (rest : Line) :
    (l ++ rest).dropWhile isWhite = l ++ rest := by
  cases l with
  | nil => exact absurd rfl hne
  | cons c cs =>
    rw [List.cons_append, List.dropWhile_cons_of_neg (by rw [h c rfl]; decide)]

/-- R191: whitespace around a text that neither starts nor ends with whitespace is what the loader trims. -/
theorem trim_surrounded {before text after : Line} (hb : ∀ c ∈ before, isWhite c = true)
    (ha : ∀ c ∈ after, isWhite c = true) (hne : text ≠ []) (hh : ∀ c ∈ text.head?, isWhite c = false)
    (hl : ∀ c ∈ text.getLast?, isWhite c = false) : trim (before ++ text ++ after) = text := by
  have hl' : ∀ c ∈ text.reverse.head?, isWhite c = false := by rwa [List.head?_reverse]
  have hd := dropWhile_append_of_head (by simpa using hne) hl' []
  rw [List.append_nil] at hd
  rw [trim, List.append_assoc, dropWhile_white_append hb, dropWhile_append_of_head hne hh, List.reverse_append,
    dropWhile_white_append (by simpa using ha), hd, List.reverse_reverse]

end Sys2Proof.Machine
end

