-- ==== Sys2Proof/Tests/Slice0.lean ====
section
/-! SUPPORT. The model's own tests. Expected values are the spec's worked examples and tables (spec/95_test_vectors.md,
named by row) or words composed by hand from the field positions of spec/30_encoding.md R61. -/

namespace Sys2Proof.Tests

open Sys2Proof Sys2Proof.Machine

/-! ### Helpers -/

/-- A running state with an image, a pc, a count and some registers. -/
def sample (image : List Word) (pc : Int) (count : Nat) (regs : List (RegIndex × Word)) : State :=
  regs.foldl (fun s r => writeReg s r.1 r.2) { State.boot image with pc := pc, count := count }

/-- An image of `n` words 0 with one word at its index. -/
def imageWith (n i : Nat) (w : Word) : List Word := (List.replicate n 0#32).set i w

/-- The next state of an outcome; the given state where there is none. -/
def nextOf (s : State) (o : Host.Outcome State Fault Refusal) : State :=
  match o with
  | .next t => t
  | .fault _ => s
  | .refused _ => s

def isNext (o : Host.Outcome State Fault Refusal) : Bool :=
  match o with
  | .next _ => true
  | .fault _ => false
  | .refused _ => false

theorem eq_next_nextOf {o : Host.Outcome State Fault Refusal} (s : State) (h : isNext o = true) :
    o = .next (nextOf s o) := by
  cases o with
  | next t => rfl
  | fault r => cases h
  | refused r => cases h

/-- The state after one step. -/
def after (s : State) : State := nextOf s (step s)

/-! ### WellFormed: one ill-formed term for each check (R73, rows L1-2) -/

theorem test_lw_offset_32768_refused : (Instr.lw 0 1 32768).wellFormed = false := by decide
theorem test_sw_offset_below_refused : (Instr.sw 0 1 (-32769)).wellFormed = false := by decide
theorem test_beq_offset_32768_refused : (Instr.beq 0 1 32768).wellFormed = false := by decide
theorem test_lw_offset_extremes_accepted :
    (Instr.lw 0 1 32767).wellFormed = true ∧ (Instr.lw 0 1 (-32768)).wellFormed = true := by decide

/-! ### Decoder, one word per constructor (part 2, table "Decoder"; opcode, regA, regB, then the low bits) -/

theorem test_decode_add : decode 0b0000000_000_000_001_0000000000000_010#32 = .add 0 1 2 := by decide
theorem test_decode_add_unused_bits : decode 0x00397FFF#32 = .add 7 1 7 := by decide
theorem test_decode_nand : decode 0b0000000_001_001_010_0000000000000_011#32 = .nand 1 2 3 := by decide
theorem test_decode_lw : decode 0b0000000_010_000_000_1000000000000000#32 = .lw 0 0 (-32768) := by decide
theorem test_decode_sw : decode 0b0000000_011_000_010_0000000000001010#32 = .sw 0 2 10 := by decide
theorem test_decode_beq : decode 0b0000000_100_000_000_1111111111111100#32 = .beq 0 0 (-4) := by decide
theorem test_decode_jalr : decode 0b0000000_101_101_111_0000000000000000#32 = .jalr 5 7 := by decide
theorem test_decode_halt : decode 0b0000000_110_0000000000000000000000#32 = .halt := by decide
theorem test_decode_noop_all_ones : decode 0xFFFFFFFF#32 = .noop := by decide

/-! ### Encoder (part 2, table "Encoder") -/

theorem test_encode_beq_minus_one : encode (.beq 0 0 (-1)) = 0x0100FFFF#32 := by decide
theorem test_encode_nand : encode (.nand 1 2 3) = 0x004A0003#32 := by decide
theorem test_decodeTableWord_sw : decodeTableWord 32 0x00C2000A = some (.sw 0 2 10) := by decide

/-! ### add, nand (part 2) -/

/-- L1-7, first step: add 0 1 2 with x = [5, 3, 0, …]. -/
theorem test_add_first_step :
    let t := after (sample [0x00010002#32, 0x01800000#32] 0 0 [(0, 5#32), (1, 3#32)])
    readReg t 2 = 8#32 ∧ t.pc = 1 ∧ t.count = 1 := by decide

/-- add 1 2 3 on 2147483647 and 1. -/
theorem test_add_wraps :
    readReg (after (sample [0x000A0003#32] 0 0 [(1, 0x7FFFFFFF#32), (2, 1#32)])) 3 = 0x80000000#32 := by decide

/-- nand 1 2 3 on -1 and 65535. -/
theorem test_nand_mask :
    readReg (after (sample [0x004A0003#32] 0 0 [(1, 0xFFFFFFFF#32), (2, 0xFFFF#32)])) 3 = 0xFFFF0000#32 := by decide

/-- nand 3 3 3 inverts in place. -/
theorem test_nand_in_place :
    readReg (after (sample [0x005B0003#32] 0 0 [(3, 0xFFFF0000#32)])) 3 = 0xFFFF#32 := by decide

/-! ### lw, sw (part 2; the memory has four words) -/

/-- lw 1 1 0 with x[1] = 2: the base is read before it is written. -/
theorem test_lw_into_its_base :
    let t := after (sample [0x00890000#32, 0#32, 9#32, 0#32] 0 0 [(1, 2#32)])
    readReg t 1 = 9#32 ∧ t.pc = 1 := by decide

/-- lw 1 2 1 with x[1] = 2147483647: the address does not wrap, and the fault writes nothing. -/
theorem test_lw_no_wrap_faults :
    let t := after (sample [0x008A0001#32, 0#32, 9#32, 0#32] 0 0 [(1, 0x7FFFFFFF#32)])
    t.status = .faulted .memoryOutOfBounds ∧ readReg t 2 = 0#32 ∧ t.pc = 0 ∧ t.count = 0 := by decide

/-- sw 1 1 0 with x[1] = 3 stores the base itself. -/
theorem test_sw_stores_its_base :
    let t := after (sample [0x00C90000#32, 0#32, 9#32, 0#32] 0 0 [(1, 3#32)])
    memRead t.mem 3 = some 3#32 ∧ memRead t.mem 2 = some 9#32 := by decide

/-- sw 0 2 0 at pc = 0 overwrites itself and completes. -/
theorem test_sw_over_itself :
    let t := after (sample [0x00C20000#32, 0#32, 9#32, 0#32] 0 0 [(2, 42#32)])
    memRead t.mem 0 = some 42#32 ∧ t.pc = 1 ∧ t.status = .running := by decide

/-! ### beq, jalr (part 2) -/

/-- beq 0 0 -4 at pc = 6. -/
theorem test_beq_backward : (after (sample (imageWith 7 6 0x0100FFFC#32) 6 0 [])).pc = 3 := by decide

/-- beq 1 2 7 at pc = 2 with -1 and 2147483647: not taken. -/
theorem test_beq_not_taken :
    (after (sample (imageWith 3 2 0x010A0007#32) 2 0 [(1, 0xFFFFFFFF#32), (2, 0x7FFFFFFF#32)])).pc = 3 := by decide

/-- L1-1: jalr 2 2 at pc = 5 with x[2] = 10. -/
theorem test_jalr_same_register :
    let t := after (sample (imageWith 6 5 0x01520000#32) 5 0 [(2, 10#32)])
    t.pc = 10 ∧ readReg t 2 = 6#32 := by decide

/-- jalr 3 4 at pc = 1 with x[3] = -5: it retires, and the bad pc is kept. -/
theorem test_jalr_negative_target :
    let t := after (sample (imageWith 2 1 0x015C0000#32) 1 0 [(3, 0xFFFFFFFB#32)])
    t.pc = -5 ∧ readReg t 4 = 2#32 ∧ t.status = .running ∧ t.count = 1 := by decide

/-! ### halt, noop, the fetch check (part 2) -/

theorem test_halt_counts :
    let t := after (sample [0#32, 0x01800000#32] 1 1 [])
    t.status = .halted ∧ t.pc = 2 ∧ t.count = 2 := by decide

theorem test_noop_all_ones :
    let t := after (sample (imageWith 4 3 0xFFFFFFFF#32) 3 3 [])
    t.status = .running ∧ t.pc = 4 ∧ t.count = 4 := by decide

theorem test_empty_image_faults :
    let t := after State.reset
    t.status = .faulted .programCounterOutOfBounds ∧ t.pc = 0 ∧ t.count = 0 := by decide

theorem test_fetch_below_zero_faults :
    (after (sample (imageWith 3 0 0#32) (-1) 0 [])).status = .faulted .programCounterOutOfBounds := by decide

/-- The host's placing, at reset: the very next step is the placed noop. -/
theorem test_withFetchWord_from_reset :
    let t := after (State.reset.withFetchWord 32 0x01C00000)
    t.pc = 1 ∧ t.count = 1 ∧ t.status = .running := by decide

/-! ### Image loader (part 2) -/

theorem test_load_trims_and_skips :
    readImage 1 ["  42  ".toList, "".toList, "-7".toList] = .ok [42#32, 0xFFFFFFF9#32] := by rfl
theorem test_load_plus_sign : readImageLine "+7".toList = .word 7#32 := by decide
theorem test_load_lowest : readImageLine "-2147483648".toList = .word 0x80000000#32 := by decide
theorem test_load_too_large : readImageLine "2147483648".toList = .malformed := by decide
theorem test_load_two_numbers : readImageLine "1 2".toList = .malformed := by decide
theorem test_load_hex : readImageLine "0x10".toList = .malformed := by decide

/-! ### Assembler (part 1 and part 2, table "Encoder") -/

theorem test_asm_label_branch :
    assemble (some ["a beq 0 0 a ; self".toList]) = .ok [0x0100FFFF#32] := by rfl
theorem test_asm_offset_out_of_range :
    assemble (some ["lw 0 1 32768".toList]) = .error (.offsetOutOfRange 1) := by rfl
theorem test_asm_register_out_of_range :
    assemble (some ["add 8 1 2".toList]) = .error (.registerOutOfRange 1) := by rfl
theorem test_asm_operand_count : assemble (some ["add 1 2".toList]) = .error (.malformedLine 1) := by rfl
theorem test_asm_unknown_mnemonic :
    assemble (some ["mul 1 2 3".toList]) = .error (.unrecognizedOpcode 1) := by rfl
theorem test_asm_undefined_label :
    assemble (some ["lw 0 1 nowhere".toList]) = .error (.undefinedLabel 1) := by rfl
/-- L1-4. -/
theorem test_asm_duplicate_label :
    assemble (some ["loop noop".toList, "loop halt".toList]) = .error (.duplicateLabel 2) := by rfl
/-- L1-5, at address 1. -/
theorem test_asm_fill_label :
    assemble (some [".fill target".toList, "target halt".toList]) = .ok [1#32, 0x01800000#32] := by rfl

/-! ### Witnesses: concrete states and operands that meet the hypotheses of each statement -/

/-- Four words: sw 0 2 1, then words 0. -/
def storeNext : State := sample [0x00C20001#32, 0#32, 0#32, 0#32] 0 0 [(2, 0x01800000#32)]

/-- One word: beq 0 0 -1. -/
def selfBranch : State := sample [0x0100FFFF#32] 0 0 []

/-- A halted and a faulted state. -/
def halted : State := { State.reset with status := .halted }
def faulted : State := { State.reset with status := .faulted .memoryOutOfBounds }

theorem witness_DecodeOfEncodeIsTheInstruction :
    (Instr.lw 7 1 (-32768)).wellFormed = true ∧ (Instr.beq 0 0 32767).wellFormed = true ∧
      (Instr.add 7 7 7).wellFormed = true := by decide

theorem witness_OpcodeSelectsTheInstruction :
    (decodeFields 0x00010002#32).opcode = 0 ∧ (decodeFields 0x004A0003#32).opcode = 1 ∧
    (decodeFields 0x00810008#32).opcode = 2 ∧ (decodeFields 0x00C2000A#32).opcode = 3 ∧
    (decodeFields 0x0100FFFC#32).opcode = 4 ∧ (decodeFields 0x016F0000#32).opcode = 5 ∧
    (decodeFields 0x01800000#32).opcode = 6 ∧ (decodeFields 0xFFFFFFFF#32).opcode = 7 := by decide

theorem witness_OffsetSignBitFillsTheUpperHalf : 15 < 32 ∧ 16 < 32 ∧ 31 < 32 := by decide

theorem witness_StepRunsTheFetchedInstruction :
    selfBranch.status = .running ∧ memRead selfBranch.mem selfBranch.pc = some 0x0100FFFF#32 := by decide

theorem witness_FetchCheckFaults :
    State.reset.status = .running ∧ ¬ (0 ≤ State.reset.pc ∧ State.reset.pc < (State.reset.mem.length : Int)) := by
  decide

theorem witness_FetchCheckFaults_negative :
    let s := sample [0#32] (-1) 0 []
    s.status = .running ∧ ¬ (0 ≤ s.pc ∧ s.pc < (s.mem.length : Int)) := by decide

theorem witness_StepIsDefinedExactlyWhenRunning :
    halted.status = .halted ∧ faulted.status = .faulted .memoryOutOfBounds ∧ faulted.status ≠ .running := by decide

theorem witness_PlacedWordRunsNext :
    0 ≤ State.reset.pc ∧ State.reset.pc < 2147483647 ∧ (0 : Int) ≤ 2147483646 ∧ (2147483646 : Int) < 2147483647 := by
  decide

theorem witness_AddressMapIsTheImage : (0 : Int) ≤ 0 ∧ (0 : Int) < ([7#32] : List Word).length := by decide

theorem witness_AddIsTheSignedSum :
    let s := sample [] 0 0 [(1, 0x7FFFFFFE#32), (2, 1#32), (3, 0x80000001#32), (4, 0xFFFFFFFF#32)]
    (-2147483648 ≤ s32 (readReg s 1) + s32 (readReg s 2) ∧ s32 (readReg s 1) + s32 (readReg s 2) = 2147483647) ∧
    s32 (readReg s 3) + s32 (readReg s 4) = -2147483648 := by decide

theorem witness_NandResult : 0 < 32 ∧ 31 < 32 := by decide

/-- Both ends of the memory, and both sides outside it: the addresses 0 and 3 of four words, -1 and 4. -/
theorem witness_LwResult_and_SwResult :
    (0 ≤ s32 (readReg storeNext 0) + 0 ∧ s32 (readReg storeNext 0) + 0 < (storeNext.mem.length : Int)) ∧
    (0 ≤ s32 (readReg storeNext 0) + 3 ∧ s32 (readReg storeNext 0) + 3 < (storeNext.mem.length : Int)) ∧
    s32 (readReg storeNext 0) + (-1) < 0 ∧ (storeNext.mem.length : Int) ≤ s32 (readReg storeNext 0) + 4 := by decide

theorem witness_BeqResult :
    (Instr.beq 0 0 32767).wellFormed = true ∧ (Instr.beq 0 0 (-32768)).wellFormed = true := by decide

theorem witness_JalrLinkIsExact :
    storeNext.mem.length ≤ 2147483647 ∧ 0 ≤ storeNext.pc ∧ storeNext.pc < (storeNext.mem.length : Int) := by decide

/-- A word of each row, for the clauses on the words that are one. -/
theorem witness_wordsUnderTheOpcodeMask :
    0xFE000000#32 &&& 0x01C00000#32 = 0x00000000#32 ∧ 0x004A0003#32 &&& 0x01C00000#32 = 0x00400000#32 ∧
    0x00810008#32 &&& 0x01C00000#32 = 0x00800000#32 ∧ 0x00C2000A#32 &&& 0x01C00000#32 = 0x00C00000#32 ∧
    0x0100FFFC#32 &&& 0x01C00000#32 = 0x01000000#32 ∧ 0x0147FFFF#32 &&& 0x01C00000#32 = 0x01400000#32 ∧
    0x01800000#32 &&& 0x01C00000#32 = 0x01800000#32 ∧ 0xFFFFFFFF#32 &&& 0x01C00000#32 = 0x01C00000#32 := by decide

theorem witness_OnlyTheDestinationRegisterChanges :
    exec (.add 1 2 3) storeNext = .next (nextOf storeNext (exec (.add 1 2 3) storeNext)) ∧ (2 : RegIndex) ≠ 3 :=
  ⟨eq_next_nextOf _ (by decide), by decide⟩

/-- Two states that differ in register 5, which add 1 2 3 does not read. -/
theorem witness_OnlySourceRegistersAreRead :
    let s := storeNext
    let s' := writeReg storeNext 5 1#32
    s.status = .running ∧ s' = { s with x := s'.x } ∧ s.x ≠ s'.x ∧
      (∀ r ∈ (Instr.add 1 2 3).sourceRegs, readReg s r = readReg s' r) ∧
      exec (.add 1 2 3) s = .next (nextOf s (exec (.add 1 2 3) s)) ∧
      exec (.add 1 2 3) s' = .next (nextOf s' (exec (.add 1 2 3) s')) ∧
      ¬ (nextOf s (exec (.add 1 2 3) s)).isFaulted :=
  ⟨by decide, by decide, by decide, by decide, eq_next_nextOf _ (by decide), eq_next_nextOf _ (by decide),
    fun ⟨_, h⟩ => by cases h⟩

theorem witness_OnlyTheStoredWordChanges :
    exec (.sw 0 2 1) storeNext = .next (nextOf storeNext (exec (.sw 0 2 1) storeNext)) ∧
      (0 : Int) ≠ effectiveAddress storeNext 0 1 :=
  ⟨eq_next_nextOf _ (by decide), by decide⟩

/-- A step that retires and one that faults. -/
theorem witness_NextPcOfEveryInstruction :
    storeNext.status = .running ∧
    exec (.sw 0 2 1) storeNext = .next (nextOf storeNext (exec (.sw 0 2 1) storeNext)) ∧
    ¬ (nextOf storeNext (exec (.sw 0 2 1) storeNext)).isFaulted ∧
    exec (.sw 0 2 4) storeNext = .next (nextOf storeNext (exec (.sw 0 2 4) storeNext)) ∧
    (nextOf storeNext (exec (.sw 0 2 4) storeNext)).isFaulted :=
  ⟨by decide, eq_next_nextOf _ (by decide), fun ⟨_, h⟩ => (by cases h), eq_next_nextOf _ (by decide),
    ⟨.memoryOutOfBounds, by decide⟩⟩

/-- A step for each run status a step can leave: Running, Halted and (from an `lw` outside the memory) Faulted. -/
theorem witness_StatusChangesOnlyByHaltOrFault :
    step storeNext = .next (after storeNext) ∧ (after storeNext).status = .running ∧
    step (sample [0x01800000#32] 0 0 []) = .next (after (sample [0x01800000#32] 0 0 [])) ∧
    (after (sample [0x01800000#32] 0 0 [])).status = .halted ∧
    step (sample [0x00810001#32] 0 0 []) = .next (after (sample [0x00810001#32] 0 0 [])) ∧
    (after (sample [0x00810001#32] 0 0 [])).status ≠ .running :=
  ⟨eq_next_nextOf _ (by decide), by decide, eq_next_nextOf _ (by decide), by decide, eq_next_nextOf _ (by decide),
    by decide⟩

/-- A step that faults at the fetch check, and one that faults at a data access. -/
theorem witness_FaultingSteps :
    step State.reset = .next (after State.reset) ∧
    (after State.reset).status = .faulted .programCounterOutOfBounds ∧
    step (sample [0x00810064#32] 0 0 []) = .next (after (sample [0x00810064#32] 0 0 [])) ∧
    (after (sample [0x00810064#32] 0 0 [])).status = .faulted .memoryOutOfBounds :=
  ⟨eq_next_nextOf _ (by decide), by decide, eq_next_nextOf _ (by decide), by decide⟩

theorem witness_CountGrowsByOneUnlessFaulting :
    (after State.reset).isFaulted ∧ step storeNext = .next (after storeNext) ∧ ¬ (after storeNext).isFaulted :=
  ⟨⟨.programCounterOutOfBounds, by decide⟩, eq_next_nextOf _ (by decide), fun ⟨_, h⟩ => by cases h⟩

theorem witness_ReadGivesTheLastWrite :
    let m := Memory.ofImage [7#32, 0#32, 9#32]
    (0 : Int) < (m.length : Int) ∧ (0 : Int) ≤ 2 ∧ (2 : Int) < (m.length : Int) ∧ (-1 : Int) < 0 ∧
      (m.length : Int) ≤ 3 := by decide

/-- A memory read back from its own write of a word it holds already. -/
theorem witness_EqualWordsMeanEqualMemories :
    let m := Memory.ofImage [7#32, 0#32, 9#32]
    let m' := (m.set 1 5#32).set 1 0#32
    m.wf ∧ m'.wf ∧ m.length = m'.length ∧ ∀ a : Int, memRead m a = memRead m' a :=
  ⟨by decide, by decide, rfl, fun _ => rfl⟩

theorem witness_StoredWordIsTheNextInstruction :
    storeNext.status = .running ∧ memRead storeNext.mem storeNext.pc = some 0x00C20001#32 ∧
    decode 0x00C20001#32 = .sw 0 2 1 ∧ s32 (readReg storeNext 0) + 1 = storeNext.pc + 1 ∧
    storeNext.pc + 1 < (storeNext.mem.length : Int) := by decide

theorem witness_EveryStepKeepsTheInvariant : storeNext.Inv ∧ step storeNext = .next (after storeNext) :=
  ⟨⟨by decide, by decide, by decide, by decide, fun _ h => by cases h⟩, eq_next_nextOf _ (by decide)⟩

theorem witness_LoadedStatesSatisfyTheInvariant :
    load (some ["7".toList]) = .next (State.boot [7#32]) := by rfl

theorem witness_RunningRunHasCountedEveryStep : (runSteps 2 selfBranch).status = .running := by decide

theorem witness_SelfBranchNeverEnds :
    selfBranch.status = .running ∧ memRead selfBranch.mem selfBranch.pc = some 0x0100FFFF#32 ∧
    decode 0x0100FFFF#32 = .beq 0 0 (-1) := by decide

/-- One word, a noop. -/
theorem witness_RunningOffTheImageFaults :
    let s := sample [0x01C00000#32] 0 0 []
    s.status = .running ∧ memRead s.mem s.pc = some 0x01C00000#32 ∧ s.pc + 1 = (s.mem.length : Int) ∧
    decode 0x01C00000#32 = .noop ∧ step s = .next (after s) ∧ ¬ (after s).isFaulted :=
  ⟨by decide, by decide, by decide, by decide, eq_next_nextOf _ (by decide), fun ⟨_, h⟩ => by cases h⟩

theorem witness_LoaderReadsThePrintedImage : ([7#32, 0xFFFFFFFF#32] : List Word).length ≤ 2147483647 := by simp

/-- Whitespace around, and a sign before digits with leading zeros. -/
theorem witness_ImageLineIsOneSignedWord :
    (∀ c ∈ [' ', '\t'], isWhite c = true) ∧ ['+'] ∈ ([[], ['+'], ['-']] : List (List Char)) := by
  simp [isWhite, Char.isWhitespace]

/-- A text that is no decimal: neither end is white, and no sign leaves only digits. -/
theorem witness_ImageLineIsOneSignedWord_malformed :
    let text := ['1', 'x']
    text ≠ [] ∧ (∀ c ∈ text.head?, isWhite c = false) ∧ (∀ c ∈ text.getLast?, isWhite c = false) ∧
    ∀ sign ∈ [[], ['+'], ['-']], ∀ digits, text = sign ++ digits →
      digits = [] ∨ ∃ c ∈ digits, ¬ ('0' ≤ c ∧ c ≤ '9') := by
  refine ⟨by simp, by simp [isWhite, Char.isWhitespace], by simp [isWhite, Char.isWhitespace], ?_⟩
  intro sign hs digits h
  simp only [List.mem_cons, List.not_mem_nil, or_false] at hs
  rcases hs with rfl | rfl | rfl
  · exact .inr ⟨'x', by rw [List.nil_append] at h; simp [← h], by decide⟩
  · simp at h
  · simp at h

/-- Two numbers with a gap between them. -/
theorem witness_ImageLineIsOneSignedWord_two :
    ['1'] ≠ [] ∧ (∀ c ∈ ['1'], isWhite c = false) ∧ [' '] ≠ [] ∧ (∀ c ∈ [' '], isWhite c = true) ∧
    ['2'] ≠ [] ∧ ∀ c ∈ ['2'], isWhite c = false := by
  simp [isWhite, Char.isWhitespace]

theorem witness_FirstMalformedLineEndsTheLoad :
    (∀ l ∈ ["7".toList, "".toList], readImageLine l ≠ .malformed) ∧
    readImageLine "1 2".toList = .malformed := by decide

theorem witness_ReportHoldsTheFinalState_and_FaultsExitNonZero :
    halted.status ≠ .running ∧ halted.status = .halted ∧ faulted.status ≠ .running ∧
    faulted.status = .faulted .memoryOutOfBounds ∧ 0 < storeNext.mem.length := by decide

/-- Both ends of the range and the two values beside them, as literals and as labels. -/
theorem witness_OffsetIsCheckedThenMasked :
    registerOperand 1 ['0'] = .ok 0 ∧ registerOperand 1 ['7'] = .ok 7 ∧
    valueOrLabel [] 1 "32767".toList (fun k : Nat => (k : Int)) = .ok 32767 ∧
    valueOrLabel [] 1 "32768".toList (fun k : Nat => (k : Int)) = .ok 32768 ∧
    valueOrLabel [] 1 "-32768".toList (fun k : Nat => (k : Int) - ((0 : Nat) + 1)) = .ok (-32768) ∧
    valueOrLabel [] 1 "-32769".toList (fun k : Nat => (k : Int) - ((0 : Nat) + 1)) = .ok (-32769) ∧
    valueOrLabel [(['d'], 32768)] 1 ['d'] (fun k : Nat => (k : Int)) = .ok 32768 ∧
    valueOrLabel [(['d'], 32768)] 1 ['d'] (fun k : Nat => (k : Int) - ((0 : Nat) + 1)) = .ok 32767 :=
  ⟨rfl, rfl, rfl, rfl, rfl, rfl, rfl, rfl⟩

theorem witness_StatementEncodesItsOperands :
    registerOperand 8 ['0'] = .ok 0 ∧ registerOperand 8 ['7'] = .ok 7 ∧ registerOperand 8 ['3'] = .ok 3 ∧
    valueOrLabel [(['d'], 7)] 8 ['d'] (fun k : Nat => (k : Int)) = .ok 7 ∧
    valueOrLabel [(['d'], 7)] 8 ['d'] (fun k : Nat => (k : Int) - ((7 : Nat) + 1)) = .ok (-1) :=
  ⟨rfl, rfl, rfl, rfl, rfl⟩

theorem witness_TakenBranchLandsOnItsLabel :
    selfBranch.pc = ((0 : Nat) : Int) ∧ readReg selfBranch 0 = readReg selfBranch 1 := by decide

theorem witness_OneWordPerSourceLine : assemble (some ["noop".toList, "halt".toList]) =
    .ok [0x01C00000#32, 0x01800000#32] := by rfl

/-- A blank line, an instruction and a data word. -/
theorem witness_AssembledWordIsInstrFillOrBlank :
    encodeLine [] 0 " ; a comment".toList = .ok Config.blankLineWord ∧
    encodeLine [] 0 "lw 0 1 8".toList = .ok 0x00810008#32 ∧
    encodeLine [] 0 ".fill -1".toList = .ok 0xFFFFFFFF#32 := ⟨rfl, rfl, rfl⟩

theorem witness_SecondDefinitionOfALabelFails :
    (["loop noop".toList].filterMap labelOf).Nodup ∧ "loop".toList ∈ ["loop noop".toList].filterMap labelOf ∧
    labelOf "loop halt".toList = some "loop".toList := by decide

end Sys2Proof.Tests
end

section
/-! Proofs about the state: registers and reset, what a step keeps, and how the run status, the pc and the count
move (spec/10_state.md). -/

namespace Sys2Proof.Machine

/-! ### Faulted states -/

theorem isFaulted_setStatus_faulted (s : State) (k : FaultKind) : (setStatus s (.faulted k)).isFaulted := ⟨k, rfl⟩

/-- From `Running`, an instruction that retires leaves `Halted` or `Running`, never `Faulted(k)`. -/
theorem retiredStatus_ne_faulted {i : Instr} {s : State} (hs : s.status = .running) (k : FaultKind) :
    retiredStatus i s ≠ .faulted k := by
  rw [retiredStatus_of_running hs]
  split <;> simp

theorem not_isFaulted_of_retired {i : Instr} {s t : State} (hs : s.status = .running)
    (ht : t.status = retiredStatus i s) : ¬ t.isFaulted := by
  rintro ⟨k, hk⟩
  exact retiredStatus_ne_faulted hs k (ht.symm.trans hk)

/-- The bounds check of R130, read off the instruction: only `lw` and `sw` have one. -/
theorem dataFault_iff {i : Instr} {s : State} : dataFault i s ↔
    ∃ a b off, (i = .lw a b off ∨ i = .sw a b off) ∧
      ¬ (0 ≤ s32 (readReg s a) + off ∧ s32 (readReg s a) + off < (s.mem.length : Int)) := by
  have houtside (a : RegIndex) (off : Int) : s.mem.inBounds (effectiveAddress s a off) = false ↔
      ¬ (0 ≤ s32 (readReg s a) + off ∧ s32 (readReg s a) + off < (s.mem.length : Int)) := by
    rw [← Bool.not_eq_true, inBounds_iff, effectiveAddress]
  cases i with
  | lw | sw => simp [dataFault, houtside]
  | add | nand | beq | jalr | halt | noop => simp [dataFault]

theorem not_dataFault_iff {i : Instr} {s : State} : ¬ dataFault i s ↔
    ∀ a b off, i = .lw a b off ∨ i = .sw a b off →
      0 ≤ s32 (readReg s a) + off ∧ s32 (readReg s a) + off < (s.mem.length : Int) := by
  rw [dataFault_iff]
  push Not
  rfl

/-! ### The invariant of legal states -/

theorem s32_range (w : Word) : -2147483648 ≤ s32 w ∧ s32 w ≤ 2147483647 :=
  ⟨BitVec.le_toInt w, Int.lt_add_one_iff.mp (BitVec.toInt_lt (x := w))⟩

/-- R24: `jalr` reaches every signed word; a step from inside the memory reaches at most 32767 words beyond it, and at
most 32767 words below address 0. -/
theorem retiredPc_range {s : State} {w : Word} (hw : fetch s = some w) (hlen : s.mem.length ≤ Config.maxWords) :
    -2147483648 ≤ retiredPc (decode w) s ∧ retiredPc (decode w) s ≤ 2147483647 + 32767 := by
  obtain ⟨⟨hge, hlt⟩, -⟩ := fetch_eq_some.mp hw
  rw [Config.maxWords] at hlen
  rcases hd : decode w with _ | _ | _ | _ | ⟨a, b, off⟩ | ⟨a, b⟩ | _ | _
  case beq =>
    obtain ⟨hoff, hoff'⟩ := decode_offset_range (.inr (.inr hd))
    simp only [retiredPc, branchTarget]
    split <;> omega
  case jalr =>
    obtain ⟨hr, hr'⟩ := s32_range (readReg s a)
    simp only [retiredPc, jumpTarget]
    omega
  all_goals
    simp only [retiredPc]
    omega

theorem State.Inv.setStatus_faulted {s : State} (h : s.Inv) {k : FaultKind}
    (hk : k = .programCounterOutOfBounds ∨ k = .memoryOutOfBounds) : (setStatus s (.faulted k)).Inv where
  mem_wf := h.mem_wf
  length_le := h.length_le
  pc_ge := h.pc_ge
  pc_le := h.pc_le
  faulted_kind := by rintro _ ⟨⟩; exact hk

/-- Settles O36: fault entry keeps the invariant with one of the two kinds of R161; a retiring instruction keeps it
field by field, the pc by the decoder's offset range. -/
theorem everyStepKeepsTheInvariant : Obligations.EveryStepKeepsTheInvariant := by
  intro s t hinv h
  obtain ⟨hs, ⟨-, rfl⟩ | ⟨w, hw, ⟨-, rfl⟩ | ⟨hdf, hpc, hmem, hst, -, -⟩⟩⟩ := step_cases h
  · exact hinv.setStatus_faulted (.inl rfl)
  · exact hinv.setStatus_faulted (.inr rfl)
  · obtain ⟨hge, hle⟩ := retiredPc_range hw hinv.length_le
    exact {
      mem_wf := hmem ▸ retiredMem_wf hinv.mem_wf hdf
      length_le := by rw [hmem, retiredMem_length]; exact hinv.length_le
      pc_ge := hpc ▸ hge
      pc_le := hpc ▸ hle
      faulted_kind := fun k hk => absurd (hst.symm.trans hk) (retiredStatus_ne_faulted hs k) }

/-- Settles O37. -/
theorem resetSatisfiesTheInvariant : Obligations.ResetSatisfiesTheInvariant where
  mem_wf := reset_mem_wf
  length_le := Nat.zero_le _
  pc_ge := by decide
  pc_le := by decide
  faulted_kind := by rintro _ ⟨⟩

/-! ### Registers and reset -/

/-- Settles O12. -/
theorem everyRegisterIsWritable : Obligations.EveryRegisterIsWritable := by
  intro s i j v
  split
  · next h => rw [h, readReg_writeReg_self]
  · next h => exact readReg_writeReg_ne s i j v h

/-- Settles O14. -/
theorem resetValues : Obligations.ResetValues :=
  ⟨fun image => ⟨readReg_reset, boot_pc image, ofImage_length image, boot_status image, boot_count image⟩,
    boot_nil.symm⟩

/-! ### What an instruction writes and reads (R22) -/

/-- Settles O25: fault entry writes no register, and an instruction that retires at most its destination. -/
theorem onlyTheDestinationRegisterChanges : Obligations.OnlyTheDestinationRegisterChanges := by
  intro i s t h r hr
  obtain ⟨-, rfl⟩ | ⟨-, -, -, -, -, hregs⟩ := exec_cases h
  · exact readReg_setStatus s _ r
  · refine hregs r fun hd => ?_
    cases i with
    | add | nand | lw | jalr => exact hr (Option.some.inj hd).symm
    | sw | beq | halt | noop => cases hd

/-- The value an instruction that retires writes to its destination register; of no meaning where it has none. -/
def retiredValue (i : Instr) (s : State) : Word :=
  match i with
  | .add a b _ => aluAdd (readReg s a) (readReg s b)
  | .nand a b _ => aluNand (readReg s a) (readReg s b)
  | .lw a _ off => s.mem.get (effectiveAddress s a off).toNat
  | .jalr _ _ => linkWord s
  | .sw _ _ _ | .beq _ _ _ | .halt | .noop => 0#32

theorem readReg_destReg_of_exec {i : Instr} {s t : State} {d : RegIndex} (h : exec i s = .next t)
    (hdf : ¬ dataFault i s) (hd : i.destReg = some d) : readReg t d = retiredValue i s := by
  cases i with
  | add a b _ =>
    obtain rfl := execAdd_eq_next.mp h
    obtain rfl := Option.some.inj hd
    exact readReg_writeReg_self s _ _
  | nand a b _ =>
    obtain rfl := execNand_eq_next.mp h
    obtain rfl := Option.some.inj hd
    exact readReg_writeReg_self s _ _
  | lw a b off =>
    obtain ⟨-, rfl⟩ | ⟨hb, -⟩ := execLw_eq_next.mp h
    · obtain rfl := Option.some.inj hd
      exact readReg_writeReg_self s _ _
    · exact absurd hb hdf
  | jalr a b =>
    obtain rfl := execJalr_eq_next.mp h
    obtain rfl := Option.some.inj hd
    exact readReg_writeReg_self (setPc s _) _ _
  | sw | beq | halt | noop => cases hd

/-- Two states that instruction `i` cannot tell apart: they differ at most in registers it does not read. -/
structure SameReads (i : Instr) (s s' : State) : Prop where
  pc : s'.pc = s.pc
  mem : s'.mem = s.mem
  status : s'.status = s.status
  count : s'.count = s.count
  regs : ∀ r ∈ i.sourceRegs, readReg s' r = readReg s r

namespace SameReads

variable {i : Instr} {s s' : State}

theorem dataFault_iff (h : SameReads i s s') : dataFault i s' ↔ dataFault i s := by
  cases i with
  | lw a _ _ | sw a _ _ => simp [dataFault, effectiveAddress, h.mem, h.regs a (.head _)]
  | add | nand | beq | jalr | halt | noop => exact Iff.rfl

theorem retiredPc_eq (h : SameReads i s s') : retiredPc i s' = retiredPc i s := by
  cases i with
  | beq a b _ => simp [retiredPc, branchTarget, h.pc, h.regs a (.head _), h.regs b (.tail _ (.head _))]
  | jalr a _ => simp [retiredPc, jumpTarget, h.regs a (.head _)]
  | add | nand | lw | sw | halt | noop => simp [retiredPc, h.pc]

theorem retiredMem_eq (h : SameReads i s s') : retiredMem i s' = retiredMem i s := by
  cases i with
  | sw a b _ => simp [retiredMem, effectiveAddress, h.mem, h.regs a (.head _), h.regs b (.tail _ (.head _))]
  | add | nand | lw | beq | jalr | halt | noop => exact h.mem

theorem retiredStatus_eq (h : SameReads i s s') : retiredStatus i s' = retiredStatus i s := by
  cases i with
  | halt => rfl
  | add | nand | lw | sw | beq | jalr | noop => exact h.status

theorem retiredValue_eq (h : SameReads i s s') : retiredValue i s' = retiredValue i s := by
  cases i with
  | add a b _ | nand a b _ => simp [retiredValue, h.regs a (.head _), h.regs b (.tail _ (.head _))]
  | lw a _ _ => simp [retiredValue, effectiveAddress, h.mem, h.regs a (.head _)]
  | jalr => simp [retiredValue, linkWord, h.pc]
  | sw | beq | halt | noop => rfl

end SameReads

theorem sameReads_of_eq_with_x {i : Instr} {s s' : State} (heq : s' = { s with x := s'.x })
    (hregs : ∀ r ∈ i.sourceRegs, readReg s r = readReg s' r) : SameReads i s s' where
  pc := by rw [heq]
  mem := by rw [heq]
  status := by rw [heq]
  count := by rw [heq]
  regs r hr := (hregs r hr).symm

/-- Settles O26: both states fault or both retire, and every table an instruction goes by (pc, memory, status, value
written) is a function of what it reads. -/
theorem onlySourceRegistersAreRead : Obligations.OnlySourceRegistersAreRead := by
  intro i s s' t t' _ heq hregs h h'
  have hsame := sameReads_of_eq_with_x heq hregs
  obtain ⟨hdf, rfl⟩ | ⟨hdf, hpc, hmem, hst, hcount, -⟩ := exec_cases h <;>
    obtain ⟨hdf', rfl⟩ | ⟨hdf', hpc', hmem', hst', hcount', -⟩ := exec_cases h'
  · exact ⟨hsame.pc, hsame.mem, rfl, hsame.count, fun hnf => absurd (isFaulted_setStatus_faulted s _) hnf⟩
  · exact absurd (hsame.dataFault_iff.mpr hdf) hdf'
  · exact absurd (hsame.dataFault_iff.mp hdf') hdf
  · refine ⟨?_, ?_, ?_, ?_, fun _ d hd => ?_⟩
    · rw [hpc', hpc, hsame.retiredPc_eq]
    · rw [hmem', hmem, hsame.retiredMem_eq]
    · rw [hst', hst, hsame.retiredStatus_eq]
    · rw [hcount', hcount, hsame.count]
    · rw [readReg_destReg_of_exec h' hdf' hd, readReg_destReg_of_exec h hdf hd, hsame.retiredValue_eq]

/-! ### The next pc (R25) -/

/-- Settles O28: `retiredPc` is the table of R25, and fault entry leaves the pc. -/
theorem nextPcOfEveryInstruction : Obligations.NextPcOfEveryInstruction := by
  intro i s t hs h
  obtain ⟨-, rfl⟩ | ⟨-, hpc, -, hst, -, -⟩ := exec_cases h
  · exact ⟨fun _ => rfl, fun hnf => absurd (isFaulted_setStatus_faulted s _) hnf⟩
  · refine ⟨fun hf => absurd hf (not_isFaulted_of_retired hs hst), fun _ => hpc.trans ?_⟩
    cases i <;> rfl

/-! ### Run status and count (R29, R30) -/

theorem step_status_eq_halted_iff {s t : State} (h : step s = .next t) :
    t.status = .halted ↔ ∃ w, fetch s = some w ∧ decode w = .halt := by
  obtain ⟨hs, ⟨hf, rfl⟩ | ⟨w, hw, ⟨hdf, rfl⟩ | ⟨-, -, -, hst, -, -⟩⟩⟩ := step_cases h
  · simp [hf]
  · have hne : decode w ≠ .halt := by
      intro hd
      rw [hd] at hdf
      exact hdf
    simp [hw, hne]
  · rw [hst, retiredStatus_of_running hs]
    simp [hw]

theorem step_status_eq_running_iff {s t : State} (h : step s = .next t) :
    t.status = .running ↔ ∃ w, fetch s = some w ∧ decode w ≠ .halt ∧ ¬ dataFault (decode w) s := by
  obtain ⟨hs, ⟨hf, rfl⟩ | ⟨w, hw, ⟨hdf, rfl⟩ | ⟨hdf, -, -, hst, -, -⟩⟩⟩ := step_cases h
  · simp [hf]
  · simp [hw, hdf]
  · rw [hst, retiredStatus_of_running hs]
    simp [hw, hdf]

/-- Settles O29. -/
theorem statusChangesOnlyByHaltOrFault : Obligations.StatusChangesOnlyByHaltOrFault := by
  intro s t h
  refine ⟨step_status_eq_halted_iff h, (step_status_eq_running_iff h).trans ⟨?_, ?_⟩, ?_⟩
  · rintro ⟨w, hw, hne, hdf⟩
    exact ⟨(fetch_eq_some.mp hw).1, w, hw, hne, not_dataFault_iff.mp hdf⟩
  · rintro ⟨-, w, hw, hne, hin⟩
    exact ⟨w, hw, hne, not_dataFault_iff.mpr hin⟩
  · intro hne u hu
    exact hne (step_eq_next.mp hu).1

/-- Settles O32: fault entry leaves the count, and retiring adds one. -/
theorem countGrowsByOneUnlessFaulting : Obligations.CountGrowsByOneUnlessFaulting := by
  intro s t h
  obtain ⟨hs, ⟨-, rfl⟩ | ⟨w, -, ⟨-, rfl⟩ | ⟨-, -, -, hst, hcount, -⟩⟩⟩ := step_cases h
  · exact ⟨fun _ => rfl, fun hnf => absurd (isFaulted_setStatus_faulted s _) hnf⟩
  · exact ⟨fun _ => rfl, fun hnf => absurd (isFaulted_setStatus_faulted s _) hnf⟩
  · exact ⟨fun hf => absurd hf (not_isFaulted_of_retired hs hst), fun _ => hcount⟩

/-- A run that is still going on has been going on from its start. -/
theorem running_of_runSteps_running {n : Nat} {s : State} (h : (runSteps n s).status = .running) :
    s.status = .running := by
  by_contra hne
  rw [runSteps_of_status_ne hne] at h
  exact hne h

theorem step_next_of_running {s : State} (hs : s.status = .running) : ∃ t, step s = .next t := by
  rcases hf : fetch s with _ | w
  · exact ⟨_, step_eq_next.mpr ⟨hs, .inl ⟨hf, rfl⟩⟩⟩
  · obtain ⟨t, ht⟩ := exec_next (decode w) s
    exact ⟨t, step_eq_next.mpr ⟨hs, .inr ⟨w, hf, ht⟩⟩⟩

/-- Settles O39, by induction on the number of steps: the first step's state is itself Running, so that step has
retired. -/
theorem runningRunHasCountedEveryStep : Obligations.RunningRunHasCountedEveryStep := by
  intro n
  induction n with
  | zero => exact fun _ _ => rfl
  | succ n ih =>
    intro s hrun
    obtain ⟨t, ht⟩ := step_next_of_running (running_of_runSteps_running hrun)
    rw [runSteps_succ_of_next ht] at hrun ⊢
    have hnf : ¬ t.isFaulted := by
      rintro ⟨k, hk⟩
      simp [running_of_runSteps_running hrun] at hk
    have hcount : t.count = s.count + 1 := (countGrowsByOneUnlessFaulting s t ht).2 hnf
    calc (runSteps n t).count = t.count + n := ih t hrun
      _ = s.count + (n + 1) := by omega

end Sys2Proof.Machine
end

section
/-! Proofs about the memory: the image it holds after reset, what a read gives after a write, and the one word an
instruction changes (spec/20_memory.md). -/

namespace Sys2Proof.Machine

/-! ### The primitives and the image (R42, R48) -/

theorem inBounds_eq_false_iff {m : Memory} {a : Int} :
    m.inBounds a = false ↔ ¬ (0 ≤ a ∧ a < (m.length : Int)) := by
  rw [← Bool.not_eq_true, inBounds_iff]

/-- Settles O33: inside the memory by the laws of `Memory.set`, outside by the bounds check. -/
theorem readGivesTheLastWrite : Obligations.ReadGivesTheLastWrite := by
  intro m a v
  constructor
  · intro hge hlt
    have hb : m.inBounds a = true := (inBounds_iff m a).mpr ⟨hge, hlt⟩
    exact ⟨m.set a.toNat v, memWrite_eq_some.mpr ⟨hb, rfl⟩, set_length m _ v, memRead_set m a v hb⟩
  · intro hout
    have hb : m.inBounds a = false := inBounds_eq_false_iff.mpr (by omega)
    exact ⟨memWrite_eq_none.mpr hb, memRead_eq_none.mpr hb⟩

theorem memRead_ofImage (image : List Word) (a : Int) : memRead (Memory.ofImage image) a =
    if 0 ≤ a ∧ a < (image.length : Int) then image[a.toNat]? else none := by
  split
  · next hin =>
    have hlt : a.toNat < image.length := by omega
    rw [List.getElem?_eq_getElem hlt, memRead_eq_some, inBounds_iff, get_ofImage, List.getD_eq_getElem _ _ hlt]
    exact ⟨hin, rfl⟩
  · next hout => exact memRead_eq_none.mpr (inBounds_eq_false_iff.mpr hout)

/-- Settles O13: the memory of the boot state is the image's. -/
theorem addressMapIsTheImage : Obligations.AddressMapIsTheImage :=
  fun image => ⟨boot_pc image, memRead_ofImage image⟩

/-! ### The word an instruction stores (R43, R132) -/

/-- R132: after a `sw` that retires, its effective address reads as the stored register and every other address as
before. -/
theorem memRead_retiredMem_sw {a b : RegIndex} {off : Int} {s : State} (hdf : ¬ dataFault (.sw a b off) s)
    (c : Int) : memRead (retiredMem (.sw a b off) s) c =
      if c = effectiveAddress s a off then some (readReg s b) else memRead s.mem c :=
  memRead_set s.mem _ _ ((Bool.not_eq_false _).mp hdf) c

/-- Settles O27: fault entry leaves the memory, and of the instructions that retire only `sw` touches it. -/
theorem onlyTheStoredWordChanges : Obligations.OnlyTheStoredWordChanges := by
  intro i s t h
  obtain ⟨-, rfl⟩ | ⟨hdf, -, hmem, -, -, -⟩ := exec_cases h
  · exact ⟨rfl, fun _ _ => rfl⟩
  · rw [hmem]
    refine ⟨retiredMem_length i s, fun c hc => ?_⟩
    cases i with
    | sw => rw [memRead_retiredMem_sw hdf, if_neg hc]
    | add | nand | lw | beq | jalr | halt | noop => rfl

/-! ### A store is seen by the next fetch (R51, R54) -/

theorem step_eq_exec_of_fetch {s : State} {w : Word} (hs : s.status = .running) (hw : fetch s = some w) :
    step s = exec (decode w) s := by
  simp [step, hs, hw]

/-- Settles O35: the store retires, and the state it leaves is Running and fetches the word just stored. -/
theorem storedWordIsTheNextInstruction : Obligations.StoredWordIsTheNextInstruction := by
  intro s w a b off hs hw hd hea hlt
  obtain ⟨⟨hpc_ge, -⟩, -⟩ := fetch_eq_some.mp hw
  have hdf : ¬ dataFault (.sw a b off) s := by
    rw [not_dataFault_iff]
    rintro _ _ _ (h | h)
    · cases h
    · cases h
      omega
  obtain ⟨t, ht⟩ := exec_next (.sw a b off) s
  obtain ⟨hdf', -⟩ | ⟨-, hpc, hmem, hst, -, -⟩ := exec_cases ht
  · exact absurd hdf' hdf
  have hfetch : fetch t = some (readReg s b) := by
    rw [fetch, hpc, hmem, memRead_retiredMem_sw hdf]
    exact if_pos hea.symm
  refine ⟨t, ?_, hpc, step_eq_exec_of_fetch (hst.trans hs) hfetch⟩
  rw [step_eq_exec_of_fetch hs hw, hd, ht]

end Sys2Proof.Machine
end

section
/-! Proofs about the encoding: the decoder's fields and opcode map, its round trip with the encoder, and the bits a word
does not use (spec/30_encoding.md R61 to R70). -/

namespace Sys2Proof

/-! ### The opcode map (R67) -/

/-- The decoded instruction depends on the five fields alone; three of them known are enough to pick its row. -/
theorem decode_of_head {w : Word} {op a b : Fin 8}
    (h : (decodeFields w).opcode = op ∧ (decodeFields w).regA = a ∧ (decodeFields w).regB = b) :
    decode w = Fields.toInstr { opcode := op, regA := a, regB := b,
                                destReg := (decodeFields w).destReg, offset := (decodeFields w).offset } := by
  obtain ⟨rfl, rfl, rfl⟩ := h
  rfl

theorem decode_of_opcode {w : Word} {op : Fin 8} (h : (decodeFields w).opcode = op) :
    decode w = { decodeFields w with opcode := op }.toInstr :=
  decode_of_head ⟨h, rfl, rfl⟩

/-- Settles O5. -/
theorem opcodeSelectsTheInstruction : Obligations.OpcodeSelectsTheInstruction := fun _ =>
  ⟨decode_of_opcode, decode_of_opcode, decode_of_opcode, decode_of_opcode, decode_of_opcode, decode_of_opcode,
    decode_of_opcode, decode_of_opcode⟩

/-! ### Decoding an encoded instruction (R78) -/

theorem decode_rType (op a b d : Fin 8) : ∃ off, decode (encodeHead op a b ||| fieldAt 0 d) =
    Fields.toInstr { opcode := op, regA := a, regB := b, destReg := d, offset := off } := by
  rw [decode_of_head (decodeFields_head op a b (fieldAt_zero_high d)), decodeFields_destReg]
  exact ⟨_, rfl⟩

theorem decode_iType (op a b : Fin 8) {off : Int} (hr : offsetInRange off = true) :
    ∃ d, decode (encodeHead op a b ||| encodeOffset off) =
      Fields.toInstr { opcode := op, regA := a, regB := b, destReg := d, offset := off } := by
  rw [decode_of_head (decodeFields_head op a b (encodeOffset_high off)),
    decodeFields_offset op a b ((offsetInRange_iff off).mp hr)]
  exact ⟨_, rfl⟩

theorem decode_jType (op a b : Fin 8) : ∃ d off, decode (encodeHead op a b) =
    Fields.toInstr { opcode := op, regA := a, regB := b, destReg := d, offset := off } := by
  rw [← BitVec.or_zero (x := encodeHead op a b), decode_of_head (decodeFields_head op a b (by simp))]
  exact ⟨_, _, rfl⟩

/-- Settles O1, by the format of each instruction: the opcode and the fields its row uses are read as they were put. -/
theorem decodeOfEncodeIsTheInstruction : Obligations.DecodeOfEncodeIsTheInstruction := by
  intro i hi
  cases i with
  | add a b d =>
    obtain ⟨_, h⟩ := decode_rType 0 a b d
    exact h
  | nand a b d =>
    obtain ⟨_, h⟩ := decode_rType 1 a b d
    exact h
  | lw a b off =>
    obtain ⟨_, h⟩ := decode_iType 2 a b hi
    exact h
  | sw a b off =>
    obtain ⟨_, h⟩ := decode_iType 3 a b hi
    exact h
  | beq a b off =>
    obtain ⟨_, h⟩ := decode_iType 4 a b hi
    exact h
  | jalr a b =>
    obtain ⟨_, _, h⟩ := decode_jType 5 a b
    exact h
  | halt => decide
  | noop => decide

/-! ### The offset (R62, R63) -/

/-- Settles O3. -/
theorem everyWordDecodesWellFormed : Obligations.EveryWordDecodesWellFormed := by
  intro w
  cases hd : decode w with
  | lw _ _ off => exact (offsetInRange_iff off).mpr (Machine.decode_offset_range (.inl hd))
  | sw _ _ off => exact (offsetInRange_iff off).mpr (Machine.decode_offset_range (.inr (.inl hd)))
  | beq _ _ off => exact (offsetInRange_iff off).mpr (Machine.decode_offset_range (.inr (.inr hd)))
  | add | nand | jalr | halt | noop => rfl

theorem decodeFields_offset_eq_toInt (w : Word) : (decodeFields w).offset = (w.extractLsb' 0 16).toInt :=
  signExtend16_eq_toInt _

/-- Settles O7: the decoder's 32-bit offset is the library's sign extension of the word's low half. -/
theorem offsetSignBitFillsTheUpperHalf : Obligations.OffsetSignBitFillsTheUpperHalf := by
  intro w k hk
  have hext : (decodeFields w).offsetWord = (w.extractLsb' 0 16).signExtend 32 := by
    rw [Fields.offsetWord, decodeFields_offset_eq_toInt]
    rfl
  rw [hext, BitVec.getLsbD_signExtend]
  by_cases h16 : k < 16
  · simp [hk, h16]
  · simp [hk, h16, BitVec.msb_eq_getLsbD_last]

/-! ### The five fields (R62) -/

/-- A field read from a word is a shift and a mask of `n` ones. -/
theorem toNat_extractLsb'_eq_and (w : Word) (lo n : Nat) :
    (w.extractLsb' lo n).toNat = (w.toNat >>> lo) &&& (2 ^ n - 1) := by
  rw [BitVec.extractLsb'_toNat, Nat.and_two_pow_sub_one_eq_mod]

/-- Settles O4. -/
theorem decoderExtractsTheFiveFields : Obligations.DecoderExtractsTheFiveFields := by
  intro w
  refine ⟨toNat_extractLsb'_eq_and w 22 3, toNat_extractLsb'_eq_and w 19 3, toNat_extractLsb'_eq_and w 16 3,
    toNat_extractLsb'_eq_and w 0 3, ?_⟩
  have hlow : (w.extractLsb' 0 16).toNat = w.toNat &&& 0xFFFF := toNat_extractLsb'_eq_and w 0 16
  rw [← hlow]
  rfl

/-! ### Encoding a decoded instruction (R61, R68) -/

/-- Putting a field back where it was read keeps its three bits of the word and clears the rest. -/
theorem fieldAt_toFin_extract (w : Word) (lo : Nat) :
    fieldAt lo (w.extractLsb' lo 3).toFin = w &&& 7#32 <<< lo := by
  have hmask (i : Nat) : (7#32 : Word).getLsbD i = decide (i < 3) := Nat.testBit_two_pow_sub_one 3 i
  apply BitVec.eq_of_getLsbD_eq
  intro k hk
  rw [getLsbD_fieldAt, testBit_field rfl, BitVec.getLsbD_and, BitVec.getLsbD_shiftLeft, hmask]
  by_cases hlo : lo ≤ k
  · simp [hk, hlo, Nat.not_lt.mpr hlo, Bool.and_comm]
  · simp [hlo, Nat.not_le.mp hlo]

theorem encodeOffset_decodeFields (w : Word) : encodeOffset (decodeFields w).offset = w &&& 0xFFFF#32 := by
  have hmask (i : Nat) : (0xFFFF#32 : Word).getLsbD i = decide (i < 16) := Nat.testBit_two_pow_sub_one 16 i
  apply BitVec.eq_of_getLsbD_eq
  intro k _
  rw [getLsbD_encodeOffset, decodeFields_offset_eq_toInt, BitVec.ofInt_toInt, BitVec.getLsbD_and, hmask]
  by_cases h16 : k < 16
  · simp [h16]
  · simp [h16]

/-! The four formats of R61, of a word whose opcode is known: each gives the word under the mask of the bits it uses. -/

theorem encode_oFields {w : Word} {op : Fin 8} (h : (decodeFields w).opcode = op) :
    fieldAt 22 op = w &&& 0x01C00000#32 :=
  ((opcode_eq_iff_match w op).mpr h).symm

theorem encode_jFields {w : Word} {op : Fin 8} (h : (decodeFields w).opcode = op) :
    encodeHead op (decodeFields w).regA (decodeFields w).regB = w &&& 0x01FF0000#32 := by
  simp only [← h, encodeHead, decodeFields, fieldAt_toFin_extract, ← BitVec.and_or_distrib_left]
  rfl

theorem encode_rFields {w : Word} {op : Fin 8} (h : (decodeFields w).opcode = op) :
    encodeHead op (decodeFields w).regA (decodeFields w).regB ||| fieldAt 0 (decodeFields w).destReg =
      w &&& 0x01FF0007#32 := by
  have hdest : fieldAt 0 (decodeFields w).destReg = w &&& 7#32 := fieldAt_toFin_extract w 0
  rw [encode_jFields h, hdest, ← BitVec.and_or_distrib_left]
  rfl

theorem encode_iFields {w : Word} {op : Fin 8} (h : (decodeFields w).opcode = op) :
    encodeHead op (decodeFields w).regA (decodeFields w).regB ||| encodeOffset (decodeFields w).offset =
      w &&& 0x01FFFFFF#32 := by
  rw [encode_jFields h, encodeOffset_decodeFields, ← BitVec.and_or_distrib_left]
  rfl

/-- R68: encoding what a word decodes to gives the word with the bits its format does not use cleared. -/
theorem encode_decode (w : Word) : encode (decode w) = w &&& (decode w).usedBits := by
  rcases decode_cases w with ⟨hop, hd⟩ | ⟨hop, hd⟩ | ⟨hop, hd⟩ | ⟨hop, hd⟩ | ⟨hop, hd⟩ | ⟨hop, hd⟩ | ⟨hop, hd⟩ |
    ⟨hop, hd⟩ <;> rw [hd]
  · exact encode_rFields hop
  · exact encode_rFields hop
  · exact encode_iFields hop
  · exact encode_iFields hop
  · exact encode_iFields hop
  · exact encode_jFields hop
  · exact encode_oFields hop
  · exact encode_oFields hop

/-- Settles O2: the cleared word is the encoding of the decoded instruction, which decodes to it. -/
theorem unusedBitsAreIgnored : Obligations.UnusedBitsAreIgnored := by
  intro w
  refine ⟨?_, encode_decode w⟩
  rw [← encode_decode w]
  exact decodeOfEncodeIsTheInstruction (decode w) (everyWordDecodesWellFormed w)

end Sys2Proof
end

section
/-! Proofs about the assembler: what it emits for a line and when it refuses one, and that the loader reads what it
prints (spec/30_encoding.md R70 to R86, spec/70_reset_and_hazards.md R191). -/

namespace Sys2Proof.Machine

/-! ### A printed image is read back (R86, R191) -/

theorem readImage_printImage (line : Nat) (image : List Word) : readImage line (printImage image) = .ok image := by
  induction image generalizing line with
  | nil => rfl
  | cons w ws ih =>
    have hrest : readImage (line + 1) (ws.map printWord) = .ok ws := ih (line + 1)
    rw [printImage, List.map_cons, readImage, readImageLine_printWord, hrest]
    rfl

/-- Settles O43. -/
theorem loaderReadsThePrintedImage : Obligations.LoaderReadsThePrintedImage := by
  intro image hlen
  simp only [load, readImage_printImage]
  exact if_pos hlen

/-! ### A taken branch (R72, R140) -/

/-- Settles O49: the distance is taken from the word after the branch, which is where the target is counted from. -/
theorem takenBranchLandsOnItsLabel : Obligations.TakenBranchLandsOnItsLabel := by
  intro a b addr symbolAddress s hpc heq
  refine ⟨_, execBeq_eq_next.mpr rfl, ?_⟩
  rw [bumpCount_pc, setPc_pc, if_pos heq, branchTarget, branchDistance, hpc]
  omega

/-! ### One word per line (R83) -/

theorem length_encodeLines {tab : SymbolTable} {addr : Nat} {ls : List Line} {words : List Word}
    (h : encodeLines tab addr ls = .ok words) : words.length = ls.length := by
  induction ls generalizing addr words with
  | nil => cases h; rfl
  | cons l ls ih =>
    obtain ⟨w, -, h⟩ := bind_eq_ok.mp h
    obtain ⟨ws, hws, rfl⟩ := map_eq_ok.mp h
    rw [List.length_cons, List.length_cons, ih hws]

/-- Settles O50. -/
theorem oneWordPerSourceLine : Obligations.OneWordPerSourceLine := by
  intro ls words h
  obtain ⟨tab, -, h⟩ := bind_eq_ok.mp h
  exact length_encodeLines h

/-! ### Labels (R84) -/

theorem isSome_lookup_iff {tab : SymbolTable} {t : Token} :
    (tab.lookup t).isSome = true ↔ t ∈ tab.map Prod.fst := by
  rw [List.lookup_isSome_iff]
  simp

/-- Lines whose labels are new and distinct are passed over, and the table then names them too. -/
theorem collectLabels_append {addr : Nat} {tab : SymbolTable} {before : List Line}
    (hnd : (tab.map Prod.fst ++ before.filterMap labelOf).Nodup) :
    ∃ tab', tab'.map Prod.fst = tab.map Prod.fst ++ before.filterMap labelOf ∧
      ∀ rest, collectLabels addr tab (before ++ rest) = collectLabels (addr + before.length) tab' rest := by
  induction before generalizing addr tab with
  | nil => exact ⟨tab, by simp, fun _ => rfl⟩
  | cons l ls ih =>
    cases hl : labelOf l with
    | none =>
      rw [List.filterMap_cons_none hl] at hnd ⊢
      obtain ⟨tab', htab, hrest⟩ := ih (addr := addr + 1) hnd
      refine ⟨tab', htab, fun rest => ?_⟩
      rw [List.length_cons, Nat.add_comm ls.length, ← Nat.add_assoc, ← hrest rest]
      simp [collectLabels, hl]
    | some t =>
      rw [List.filterMap_cons_some hl] at hnd ⊢
      have hnew : tab.lookup t = none := by
        rw [← Option.not_isSome_iff_eq_none, isSome_lookup_iff]
        exact fun hmem => List.disjoint_of_nodup_append hnd hmem (List.mem_cons_self ..)
      have hfst : tab.map Prod.fst ++ t :: ls.filterMap labelOf =
          (tab ++ [(t, addr)]).map Prod.fst ++ ls.filterMap labelOf := by simp
      rw [hfst] at hnd ⊢
      obtain ⟨tab', htab, hrest⟩ := ih (addr := addr + 1) hnd
      refine ⟨tab', htab, fun rest => ?_⟩
      rw [List.length_cons, Nat.add_comm ls.length, ← Nat.add_assoc, ← hrest rest]
      simp [collectLabels, hl, hnew]

/-- Settles O52: the first pass reaches the line with a table that names its label already. -/
theorem secondDefinitionOfALabelFails : Obligations.SecondDefinitionOfALabelFails := by
  intro before after l label hnd hmem hl
  obtain ⟨tab, hfst, hrest⟩ := collectLabels_append (addr := 0) (tab := []) (before := before) hnd
  have hdef : (tab.lookup label).isSome = true := isSome_lookup_iff.mpr (hfst ▸ hmem)
  have hcollect : collectLabels 0 [] (before ++ l :: after) = .error (.duplicateLabel (before.length + 1)) := by
    rw [hrest, Nat.zero_add, collectLabels, hl]
    exact if_pos hdef
  rw [assemble, hcollect]
  rfl

/-! ### Statements whose operands resolve (R71 to R78) -/

section Resolved

variable {tab : SymbolTable} {addr : Nat} {a b x : Token} {ra rb : RegIndex} {n : Int}

theorem checkOffset_of_range (line : Nat) (h : -32768 ≤ n ∧ n ≤ 32767) : checkOffset line n = .ok n :=
  if_pos ((offsetInRange_iff n).mpr h)

theorem checkOffset_of_not_range (line : Nat) (h : ¬ (-32768 ≤ n ∧ n ≤ 32767)) :
    checkOffset line n = .error (.offsetOutOfRange line) :=
  if_neg ((offsetInRange_iff n).not.mpr h)

variable (ha : registerOperand (addr + 1) a = .ok ra) (hb : registerOperand (addr + 1) b = .ok rb)
include ha hb

theorem registersAndOffset_of_ok (make : RegIndex → RegIndex → Int → Instr) (offset : Except AsmError Int) :
    registersAndOffset (addr + 1) make a b offset = offset.map (make ra rb) := by
  rw [registersAndOffset, ha, hb]
  rfl

theorem threeRegisters_of_ok (make : RegIndex → RegIndex → RegIndex → Instr) {d : Token} {rd : RegIndex}
    (hd : registerOperand (addr + 1) d = .ok rd) : threeRegisters (addr + 1) make a b d = .ok (make ra rb rd) := by
  rw [threeRegisters, ha, hb, hd]
  rfl

theorem twoRegisters_of_ok (make : RegIndex → RegIndex → Instr) :
    twoRegisters (addr + 1) make a b = .ok (make ra rb) := by
  rw [twoRegisters, ha, hb]
  rfl

theorem encodeStatement_lw (hx : valueOrLabel tab (addr + 1) x (fun k : Nat => (k : Int)) = .ok n) :
    encodeStatement tab addr .lw [a, b, x] = ((checkOffset (addr + 1) n).map (Instr.lw ra rb)).map encode := by
  simp only [encodeStatement, registersAndOffset_of_ok ha hb, dataOffset, hx]
  rfl

theorem encodeStatement_sw (hx : valueOrLabel tab (addr + 1) x (fun k : Nat => (k : Int)) = .ok n) :
    encodeStatement tab addr .sw [a, b, x] = ((checkOffset (addr + 1) n).map (Instr.sw ra rb)).map encode := by
  simp only [encodeStatement, registersAndOffset_of_ok ha hb, dataOffset, hx]
  rfl

theorem encodeStatement_beq
    (hx : valueOrLabel tab (addr + 1) x (fun k : Nat => (k : Int) - ((addr : Int) + 1)) = .ok n) :
    encodeStatement tab addr .beq [a, b, x] = ((checkOffset (addr + 1) n).map (Instr.beq ra rb)).map encode := by
  have hdist : branchDistance addr = fun k : Nat => (k : Int) - ((addr : Int) + 1) := rfl
  simp only [encodeStatement, registersAndOffset_of_ok ha hb, branchOffset, hdist, hx]
  rfl

end Resolved

/-- Whatever the head, bits 15 to 0 of an I-type word are the offset modulo 2^16. -/
theorem encodeHead_or_encodeOffset_mod (op a b : Fin 8) (n : Int) :
    (((encodeHead op a b ||| encodeOffset n).toNat % 65536 : Nat) : Int) = n % 65536 := by
  have hlow : (encodeHead op a b ||| encodeOffset n).setWidth 16 = BitVec.ofInt 16 n := by
    apply BitVec.eq_of_getLsbD_eq
    intro k hk
    rw [BitVec.getLsbD_setWidth, BitVec.getLsbD_or, getLsbD_encodeHead_low op a b k hk, getLsbD_encodeOffset]
    simp [hk]
  have hnat := congrArg BitVec.toNat hlow
  rw [BitVec.toNat_setWidth, BitVec.toNat_ofInt] at hnat
  omega

/-- Settles O48: for all three mnemonics the emitted word is an I-type word of the checked offset. -/
theorem offsetIsCheckedThenMasked : Obligations.OffsetIsCheckedThenMasked := by
  intro tab addr m ofLabel a b x ra rb n hm ha hb hx
  obtain ⟨op, henc⟩ : ∃ op : Fin 8, encodeStatement tab addr m [a, b, x] =
      (checkOffset (addr + 1) n).map fun off => encodeHead op ra rb ||| encodeOffset off := by
    rcases hm with ⟨rfl | rfl, rfl⟩ | ⟨rfl, rfl⟩
    · exact ⟨2, by rw [encodeStatement_lw ha hb hx]; cases checkOffset (addr + 1) n <;> rfl⟩
    · exact ⟨3, by rw [encodeStatement_sw ha hb hx]; cases checkOffset (addr + 1) n <;> rfl⟩
    · exact ⟨4, by rw [encodeStatement_beq ha hb hx]; cases checkOffset (addr + 1) n <;> rfl⟩
  rw [henc]
  constructor
  · intro hge hle
    rw [checkOffset_of_range _ ⟨hge, hle⟩]
    exact ⟨_, rfl, encodeHead_or_encodeOffset_mod op ra rb n⟩
  · intro hout
    rw [checkOffset_of_not_range _ (by omega)]
    rfl

/-- A statement assembled to the encoding of a well-formed instruction is assembled to a word that decodes to it. -/
theorem assembles_of_eq_encode {r : Except AsmError Word} {i : Instr} (h : r = .ok (encode i))
    (hi : i.wellFormed = true) : ∃ w, r = .ok w ∧ decode w = i :=
  ⟨encode i, h, decodeOfEncodeIsTheInstruction i hi⟩

/-- Settles O53. -/
theorem statementEncodesItsOperands : Obligations.StatementEncodesItsOperands := by
  intro tab addr a b ra rb ha hb
  refine ⟨fun d rd hd => ⟨?_, ?_⟩, fun x n hx hge hle => ⟨?_, ?_⟩, fun x n hx hge hle => ?_, ?_, ?_, ?_⟩
  · exact assembles_of_eq_encode (by rw [encodeStatement, threeRegisters_of_ok ha hb _ hd]; rfl) rfl
  · exact assembles_of_eq_encode (by rw [encodeStatement, threeRegisters_of_ok ha hb _ hd]; rfl) rfl
  · exact assembles_of_eq_encode (by rw [encodeStatement_lw ha hb hx, checkOffset_of_range _ ⟨hge, hle⟩]; rfl)
      ((offsetInRange_iff n).mpr ⟨hge, hle⟩)
  · exact assembles_of_eq_encode (by rw [encodeStatement_sw ha hb hx, checkOffset_of_range _ ⟨hge, hle⟩]; rfl)
      ((offsetInRange_iff n).mpr ⟨hge, hle⟩)
  · exact assembles_of_eq_encode (by rw [encodeStatement_beq ha hb hx, checkOffset_of_range _ ⟨hge, hle⟩]; rfl)
      ((offsetInRange_iff n).mpr ⟨hge, hle⟩)
  · exact assembles_of_eq_encode (by rw [encodeStatement, twoRegisters_of_ok ha hb]; rfl) rfl
  · exact assembles_of_eq_encode rfl rfl
  · exact assembles_of_eq_encode rfl rfl

/-! ### Lines that assemble (R70, R76, R83) -/

section Inversion

variable {line : Nat} {tab : SymbolTable} {a b d t : Token} {w : Word}

theorem threeRegisters_map_encode_eq_ok {make : RegIndex → RegIndex → RegIndex → Instr}
    (h : (threeRegisters line make a b d).map encode = .ok w) : ∃ ra rb rd, encode (make ra rb rd) = w := by
  obtain ⟨i, hi, rfl⟩ := map_eq_ok.mp h
  obtain ⟨ra, -, hi⟩ := bind_eq_ok.mp hi
  obtain ⟨rb, -, hi⟩ := bind_eq_ok.mp hi
  obtain ⟨rd, -, rfl⟩ := map_eq_ok.mp hi
  exact ⟨ra, rb, rd, rfl⟩

theorem twoRegisters_map_encode_eq_ok {make : RegIndex → RegIndex → Instr}
    (h : (twoRegisters line make a b).map encode = .ok w) : ∃ ra rb, encode (make ra rb) = w := by
  obtain ⟨i, hi, rfl⟩ := map_eq_ok.mp h
  obtain ⟨ra, -, hi⟩ := bind_eq_ok.mp hi
  obtain ⟨rb, -, rfl⟩ := map_eq_ok.mp hi
  exact ⟨ra, rb, rfl⟩

/-- An offset that went through the check of R73, however it was resolved, is in range. -/
theorem registersAndOffset_map_encode_eq_ok {make : RegIndex → RegIndex → Int → Instr}
    {resolved : Except AsmError Int}
    (h : (registersAndOffset line make a b (resolved.bind (checkOffset line))).map encode = .ok w) :
    ∃ ra rb off, offsetInRange off = true ∧ encode (make ra rb off) = w := by
  obtain ⟨i, hi, rfl⟩ := map_eq_ok.mp h
  obtain ⟨ra, -, hi⟩ := bind_eq_ok.mp hi
  obtain ⟨rb, -, hi⟩ := bind_eq_ok.mp hi
  obtain ⟨off, hoff, rfl⟩ := map_eq_ok.mp hi
  obtain ⟨n, -, hcheck⟩ := bind_eq_ok.mp hoff
  exact ⟨ra, rb, off, (offsetInRange_iff off).mpr (checkOffset_eq_ok hcheck).2, rfl⟩

theorem fillWord_eq_ok (h : fillWord tab line t = .ok w) :
    ∃ n, valueOrLabel tab line t (fun k : Nat => (k : Int)) = .ok n ∧ (-2147483648 ≤ n ∧ n ≤ 2147483647) ∧
      w = encodeFill n := by
  obtain ⟨n, hn, h⟩ := bind_eq_ok.mp h
  split at h
  · next hfits =>
    cases h
    exact ⟨n, hn, of_decide_eq_true hfits, rfl⟩
  · cases h

end Inversion

/-- What a statement that assembles gives: a well-formed instruction of its mnemonic, or the word of `.fill`. -/
theorem encodeStatement_eq_ok {tab : SymbolTable} {addr : Nat} {m : Mnemonic} {operands : List Token} {w : Word}
    (h : encodeStatement tab addr m operands = .ok w) :
    (m ≠ .fill ∧ ∃ i : Instr, i.wellFormed = true ∧ instrMnemonic i = m ∧ encode i = w) ∨
    (m = .fill ∧ ∃ v, operands = [v] ∧ fillWord tab (addr + 1) v = .ok w) := by
  unfold encodeStatement at h
  split at h
  · obtain ⟨ra, rb, rd, rfl⟩ := threeRegisters_map_encode_eq_ok h
    exact .inl ⟨by decide, .add ra rb rd, rfl, rfl, rfl⟩
  · obtain ⟨ra, rb, rd, rfl⟩ := threeRegisters_map_encode_eq_ok h
    exact .inl ⟨by decide, .nand ra rb rd, rfl, rfl, rfl⟩
  · obtain ⟨ra, rb, off, hoff, rfl⟩ := registersAndOffset_map_encode_eq_ok h
    exact .inl ⟨by decide, .lw ra rb off, hoff, rfl, rfl⟩
  · obtain ⟨ra, rb, off, hoff, rfl⟩ := registersAndOffset_map_encode_eq_ok h
    exact .inl ⟨by decide, .sw ra rb off, hoff, rfl, rfl⟩
  · obtain ⟨ra, rb, off, hoff, rfl⟩ := registersAndOffset_map_encode_eq_ok h
    exact .inl ⟨by decide, .beq ra rb off, hoff, rfl, rfl⟩
  · obtain ⟨ra, rb, rfl⟩ := twoRegisters_map_encode_eq_ok h
    exact .inl ⟨by decide, .jalr ra rb, rfl, rfl, rfl⟩
  · cases h
    exact .inl ⟨by decide, .halt, rfl, rfl, rfl⟩
  · cases h
    exact .inl ⟨by decide, .noop, rfl, rfl, rfl⟩
  · exact .inr ⟨rfl, _, rfl, h⟩
  · cases h

/-- Settles O51: by the parsed line, then by the statement's inversion; a well-formed instruction is what its encoding
decodes to. -/
theorem assembledWordIsInstrFillOrBlank : Obligations.AssembledWordIsInstrFillOrBlank := by
  intro tab addr l w h
  unfold encodeLine at h
  split at h
  · next hparse =>
    cases h
    exact .inl ⟨hparse, rfl⟩
  · cases h
  · next label t operands hparse =>
    split at h
    · next m hm =>
      refine .inr ⟨label, t, operands, m, hparse, hm, ?_⟩
      obtain ⟨hne, i, hi, hmn, rfl⟩ | ⟨hfill, v, rfl, hv⟩ := encodeStatement_eq_ok h
      · exact .inl ⟨hne, i, hi, hmn, rfl, decodeOfEncodeIsTheInstruction i hi⟩
      · obtain ⟨n, hn, hrange, rfl⟩ := fillWord_eq_ok hv
        exact .inr ⟨hfill, v, n, rfl, hn, hrange.1, hrange.2, rfl, s32_wrap32 hrange⟩
    · cases h

end Sys2Proof.Machine
end

section
/-! Proofs about the step and the run: the fetch check and the dispatch, what a faulting step leaves, where no step is
defined, and stopping a run from outside (spec/40_step.md R100 to R108). -/

namespace Sys2Proof.Machine

/-! ### The fetch and the fetch check (R101, R102) -/

/-- Settles O8. -/
theorem stepRunsTheFetchedInstruction : Obligations.StepRunsTheFetchedInstruction :=
  fun _ _ hs hw => step_eq_exec_of_fetch hs hw

/-- Settles O9: outside the memory nothing is fetched, which is the first of the two ways a step goes. -/
theorem fetchCheckFaults : Obligations.FetchCheckFaults :=
  fun _ hs hout => step_eq_next.mpr ⟨hs, .inl ⟨fetch_eq_none.mpr hout, rfl⟩⟩

/-! ### A faulting step (R105, R163) -/

/-- Settles O31: both faults go through fault entry, and an instruction that retires leaves no faulted status. -/
theorem faultingStepHasNoOtherEffect : Obligations.FaultingStepHasNoOtherEffect := by
  intro s t k h hk
  obtain ⟨hs, ⟨-, rfl⟩ | ⟨w, -, ⟨-, rfl⟩ | ⟨-, -, -, hst, -, -⟩⟩⟩ := step_cases h
  · cases hk
    rfl
  · cases hk
    rfl
  · exact absurd (hst.symm.trans hk) (retiredStatus_ne_faulted hs k)

/-! ### Where a step is defined (R100, R106, R174) -/

theorem step_of_halted {s : State} (h : s.status = .halted) : step s = .fault .halted := by
  simp [step, h]

theorem step_of_faulted {s : State} {k : FaultKind} (h : s.status = .faulted k) :
    step s = .fault (.faulted k) := by
  simp [step, h]

theorem report_isSome_iff {s : State} : (report s).isSome = true ↔ s.status ≠ .running := by
  rcases hs : s.status with _ | _ | k <;> simp [report, hs]

/-- Settles O10: a next state comes of a running state only, and a running state always has one. -/
theorem stepIsDefinedExactlyWhenRunning : Obligations.StepIsDefinedExactlyWhenRunning := fun _ =>
  ⟨⟨fun ⟨_, ht⟩ => (step_eq_next.mp ht).1, step_next_of_running⟩,
    step_of_halted,
    fun _ => step_of_faulted,
    runSteps_of_status_ne,
    report_isSome_iff⟩

/-! ### Stopping a run (R108) -/

/-- Settles O40, by induction on the steps taken before the stop: a state that is not Running stays as it is for both
parts of the run, and from a Running one the first step is the same. -/
theorem cancelledRunCanGoOn : Obligations.CancelledRunCanGoOn := by
  intro m n
  induction m with
  | zero =>
    intro s
    rw [Nat.zero_add]
    rfl
  | succ m ih =>
    intro s
    by_cases hs : s.status = .running
    · obtain ⟨t, ht⟩ := step_next_of_running hs
      calc runSteps (m + 1 + n) s = runSteps (m + n + 1) s := by rw [Nat.add_right_comm]
        _ = runSteps (m + n) t := runSteps_succ_of_next ht _
        _ = runSteps n (runSteps m t) := ih t
        _ = runSteps n (runSteps (m + 1) s) := by rw [runSteps_succ_of_next ht]
    · simp only [runSteps_of_status_ne hs]

end Sys2Proof.Machine
end

section
/-! Proofs about the R-type instructions: what `add` and `nand` write, the rest of the state they leave, and the words
that are one (spec/41_alu.md). -/

namespace Sys2Proof.Machine

/-! ### The words of an opcode (R67) -/

/-- The opcode-table form of the opcode map: a word that matches a row under the opcode mask decodes by that row. -/
theorem decode_of_match {w : Word} {op : Fin 8} (h : w &&& 0x01C00000#32 = fieldAt 22 op) :
    decode w = { decodeFields w with opcode := op }.toInstr :=
  decode_of_opcode ((opcode_eq_iff_match w op).mp h)

/-! ### The arithmetic units (R112) -/

/-- The wrapped sum of the unsigned readings is the library's addition of the patterns. -/
theorem aluAdd_eq_add (a b : Word) : aluAdd a b = a + b := by
  simp [aluAdd, wrap32, u32, BitVec.ofInt_add]

/-- D2: read as a signed value, the sum of two words is folded by 2^32 into the signed range. -/
theorem s32_aluAdd (a b : Word) :
    s32 (aluAdd a b) = (s32 a + s32 b + 2147483648) % 4294967296 - 2147483648 := by
  rw [aluAdd_eq_add, s32, BitVec.toInt_add, Int.bmod_def, ← s32, ← s32]
  split <;> omega

theorem getLsbD_aluNand (a b : Word) {k : Nat} (hk : k < 32) :
    (aluNand a b).getLsbD k = !(a.getLsbD k && b.getLsbD k) := by
  simp [aluNand, hk]

/-! ### add (R120) -/

/-- Settles O15. -/
theorem addResult : Obligations.AddResult :=
  ⟨fun _ _ _ _ => execAdd_eq_next.mpr rfl, fun _ => decode_of_match (op := 0)⟩

/-- Settles O16: the register reads as the folded sum, and folding leaves a sum in the signed range as it is. -/
theorem addIsTheSignedSum : Obligations.AddIsTheSignedSum := by
  intro a b d s
  obtain ⟨t, ht⟩ := exec_next (.add a b d) s
  have hfold : s32 (readReg t d) =
      (s32 (readReg s a) + s32 (readReg s b) + 2147483648) % 4294967296 - 2147483648 := by
    rw [readReg_destReg_of_exec ht id rfl]
    exact s32_aluAdd _ _
  refine ⟨t, ht, fun hge hle => ?_, hfold⟩
  rw [hfold]
  omega

/-! ### nand (R121) -/

/-- Settles O17. -/
theorem nandResult : Obligations.NandResult := by
  refine ⟨fun a b d s => ?_, fun _ => decode_of_match (op := 1)⟩
  have ht := execNand_eq_next (a := a) (b := b) (d := d) (s := s).mpr rfl
  refine ⟨_, ht, rfl, fun k hk => ?_⟩
  rw [readReg_destReg_of_exec ht id rfl]
  exact getLsbD_aluNand _ _ hk

end Sys2Proof.Machine
end

section
/-! Proofs about the I-type memory instructions: what `lw` reads and `sw` stores, the fault outside the memory, the
rest of the state they leave, and the words that are one (spec/42_loadstore.md). -/

namespace Sys2Proof.Machine

/-! ### The bounds check of the effective address (R130, D4) -/

section EffectiveAddress
variable {a : RegIndex} {off : Int} {s : State}

theorem inBounds_effectiveAddress (hge : 0 ≤ s32 (readReg s a) + off)
    (hlt : s32 (readReg s a) + off < (s.mem.length : Int)) :
    s.mem.inBounds (effectiveAddress s a off) = true :=
  (inBounds_iff _ _).mpr ⟨hge, hlt⟩

theorem inBounds_effectiveAddress_eq_false
    (hout : s32 (readReg s a) + off < 0 ∨ (s.mem.length : Int) ≤ s32 (readReg s a) + off) :
    s.mem.inBounds (effectiveAddress s a off) = false := by
  rw [inBounds_eq_false_iff, effectiveAddress]
  omega

end EffectiveAddress

/-! ### lw (R131) -/

/-- Settles O18: the two ways of `lw`, told apart by the bounds check of its effective address. -/
theorem lwResult : Obligations.LwResult := by
  refine ⟨fun _ _ _ _ => ⟨fun hge hlt => ?completes, fun hout => ?faults⟩, fun _ => decode_of_match (op := 2)⟩
  case completes => exact execLw_eq_next.mpr (.inl ⟨inBounds_effectiveAddress hge hlt, rfl⟩)
  case faults => exact execLw_eq_next.mpr (.inr ⟨inBounds_effectiveAddress_eq_false hout, rfl⟩)

/-! ### sw (R132) -/

/-- Settles O19: the two ways of `sw`, told apart by the bounds check of its effective address; the memory it leaves
is the old one with one word set. -/
theorem swResult : Obligations.SwResult := by
  refine ⟨fun _ _ _ _ => ⟨fun hge hlt => ?completes, fun hout => ?faults⟩, fun _ => decode_of_match (op := 3)⟩
  case completes =>
    have hb := inBounds_effectiveAddress hge hlt
    exact ⟨_, execSw_eq_next.mpr (.inl ⟨hb, rfl⟩), set_length _ _ _, memRead_set _ _ _ hb⟩
  case faults => exact execSw_eq_next.mpr (.inr ⟨inBounds_effectiveAddress_eq_false hout, rfl⟩)

end Sys2Proof.Machine
end

section
/-! Proofs about the control-transfer instructions: where `beq` and `jalr` go, the link register, the rest of the state
they leave, the words that are one, and the branch to itself (spec/43_control.md). -/

namespace Sys2Proof.Machine

/-! ### beq (R140) -/

/-- A branch with an offset the encoding admits, taken or not, stays within 32768 words of its own address. -/
theorem retiredPc_beq_range {a b : RegIndex} {off : Int} (hwf : (Instr.beq a b off).wellFormed = true) (s : State) :
    s.pc - 32767 ≤ retiredPc (.beq a b off) s ∧ retiredPc (.beq a b off) s ≤ s.pc + 32768 := by
  obtain ⟨hge, hle⟩ := (offsetInRange_iff off).mp hwf
  simp only [retiredPc, branchTarget]
  split <;> omega

/-- Settles O20: a word is its signed reading, so equal patterns are equal values. -/
theorem beqResult : Obligations.BeqResult :=
  ⟨fun _ _ _ s => ⟨_, execBeq_eq_next.mpr rfl, rfl, BitVec.toInt_inj.symm, fun hwf => retiredPc_beq_range hwf s⟩,
    fun _ => decode_of_match (op := 4)⟩

/-! ### A branch to itself (R107, R140) -/

theorem branchTarget_neg_one (s : State) : branchTarget s (-1) = s.pc := by
  rw [branchTarget]
  omega

theorem exec_selfBranch (r : RegIndex) (s : State) : exec (.beq r r (-1)) s = .next (bumpCount s) := by
  rw [execBeq_eq_next, if_pos rfl, branchTarget_neg_one]
  rfl

/-- Settles O41, by induction on the number of steps: one step counts itself and leaves the pc and the memory, so the
state after it fetches the same branch. -/
theorem selfBranchNeverEnds : Obligations.SelfBranchNeverEnds := by
  intro s w r hs hw hd n
  induction n generalizing s with
  | zero => rfl
  | succ n ih =>
    have hstep : step s = .next (bumpCount s) := by
      rw [step_eq_exec_of_fetch hs hw, hd, exec_selfBranch]
    calc runSteps (n + 1) s = runSteps n (bumpCount s) := runSteps_succ_of_next hstep n
      _ = { s with count := s.count + 1 + n } := ih (bumpCount s) hs hw
      _ = { s with count := s.count + (n + 1) } := by rw [Nat.add_assoc, Nat.add_comm 1]

/-! ### jalr (R141) -/

/-- Settles O21. -/
theorem jalrResult : Obligations.JalrResult :=
  ⟨fun _ _ _ => execJalr_eq_next.mpr rfl, fun _ => decode_of_match (op := 5)⟩

/-- D7: inside a memory of legal length the next address fits a signed word, so the link is exact. -/
theorem s32_linkWord {s : State} (hlen : s.mem.length ≤ 2147483647) (hge : 0 ≤ s.pc)
    (hlt : s.pc < (s.mem.length : Int)) : s32 (linkWord s) = s.pc + 1 :=
  s32_wrap32 (by omega)

/-- Settles O22: the link register is the destination, so it holds the link also where it is the source. -/
theorem jalrLinkIsExact : Obligations.JalrLinkIsExact := by
  intro a b s hlen hge hlt
  have ht := execJalr_eq_next (a := a) (b := b) (s := s).mpr rfl
  refine ⟨_, ht, ?_, rfl⟩
  rw [readReg_destReg_of_exec ht id rfl]
  exact s32_linkWord hlen hge hlt

end Sys2Proof.Machine
end

section
/-! Proofs about the O-type instructions: the status `halt` leaves, the rest of the state `halt` and `noop` leave, and
the words that are one (spec/44_system.md). -/

namespace Sys2Proof.Machine

/-! ### halt (R150) -/

/-- Settles O23. The pc is C2's reading and the halting step is counted (R104), so both grow as for `noop`. -/
theorem haltResult : Obligations.HaltResult :=
  ⟨fun _ => execHalt_eq_next.mpr rfl, fun _ => decode_of_match (op := 6)⟩

/-! ### noop (R151) -/

/-- Settles O24. -/
theorem noopResult : Obligations.NoopResult :=
  ⟨fun _ => execNoop_eq_next.mpr rfl, fun _ => decode_of_match (op := 7)⟩

end Sys2Proof.Machine
end

section
/-! Proofs about faults and the end of a run: why a step faults, what the report holds of the final state, and the
diagnostic and the exit status (spec/60_exceptions.md). -/

namespace Sys2Proof.Machine

/-! ### The two reasons to fault (R161, R165) -/

/-- R165: the fetch check's fault is raised where nothing is fetched, the data fault only behind a fetch, so the two
never compete for one step. -/
theorem step_status_eq_faulted_iff {s t : State} (h : step s = .next t) (k : FaultKind) :
    t.status = .faulted k ↔
      (k = .programCounterOutOfBounds ∧ fetch s = none) ∨
      (k = .memoryOutOfBounds ∧ ∃ w, fetch s = some w ∧ dataFault (decode w) s) := by
  obtain ⟨hs, ⟨hf, rfl⟩ | ⟨w, hw, ⟨hdf, rfl⟩ | ⟨hdf, -, -, hst, -, -⟩⟩⟩ := step_cases h
  · simp [hf, eq_comm]
  · simp [hw, hdf, eq_comm]
  · have hne : t.status ≠ .faulted k := hst ▸ retiredStatus_ne_faulted hs k
    simp [hne, hw, hdf]

/-- Settles O30: the fetch fails exactly outside the memory, and only `lw` and `sw` have a bounds check. -/
theorem faultConditionsAreExact : Obligations.FaultConditionsAreExact :=
  fun _ _ h k => (step_status_eq_faulted_iff h k).trans <|
    or_congr (and_congr_right fun _ => fetch_eq_none) <|
      and_congr_right fun _ => exists_congr fun _ => and_congr_right fun _ => dataFault_iff

/-! ### The report (R174, D17) -/

@[simp] theorem length_memoryValues (m : Memory) (a n : Nat) : (memoryValues m a n).length = n := by
  induction n generalizing a with
  | zero => rfl
  | succ n ih => rw [memoryValues, List.length_cons, ih]

theorem getElem?_memoryValues (m : Memory) (a : Nat) {n i : Nat} (hi : i < n) :
    (memoryValues m a n)[i]? = some (s32 (m.get (a + i))) := by
  induction n generalizing a i with
  | zero => exact absurd hi (Nat.not_lt_zero i)
  | succ n ih =>
    cases i with
    | zero => rfl
    | succ i =>
      rw [memoryValues, List.getElem?_cons_succ, ih (a + 1) (Nat.lt_of_succ_lt_succ hi), Nat.add_right_comm,
        Nat.add_assoc]

theorem getElem?_registerValues (s : State) (i : RegIndex) :
    (s.x.toList.map s32)[i.val]? = some (s32 (readReg s i)) := by
  simp [readReg]

theorem report_of_status_ne {s : State} (h : s.status ≠ .running) :
    report s = some { status := s.status, count := s.count, pc := s.pc,
                      memory := memoryValues s.mem 0 s.mem.length, registers := s.x.toList.map s32 } := by
  rcases hs : s.status with _ | _ | k
  · exact absurd hs h
  · simp [report, hs]
  · simp [report, hs]

/-- Settles O46: the memory is listed from address 0 on, so the value at place `i` is the word at address `i`. -/
theorem reportHoldsTheFinalState : Obligations.ReportHoldsTheFinalState := by
  intro s h
  refine ⟨_, report_of_status_ne h, rfl, rfl, rfl, length_memoryValues _ _ _, fun i hi => ?_, ?_,
    getElem?_registerValues s⟩
  · rw [getElem?_memoryValues s.mem 0 hi, Nat.zero_add]
  · rw [List.length_map, Vector.length_toList]

/-! ### The diagnostic and the exit status (R175, D12) -/

section EndOfRun
variable {s : State} {k : FaultKind}

theorem runDiagnostic_of_faulted (h : s.status = .faulted k) :
    runDiagnostic s = some { kind := k, pc := some s.pc, line := none } := by
  simp [runDiagnostic, h]

theorem runDiagnostic_of_halted (h : s.status = .halted) : runDiagnostic s = none := by
  simp [runDiagnostic, h]

theorem runExitStatus_of_faulted (h : s.status = .faulted k) :
    runExitStatus s = some (Config.exitStatus k) := by
  simp [runExitStatus, h]

theorem runExitStatus_of_halted (h : s.status = .halted) : runExitStatus s = some 0 := by
  simp [runExitStatus, h]

end EndOfRun

/-- The value of `EXIT_STATUS(k)` is open; that it is not 0 is not. -/
theorem exitStatus_ne_zero (k : FaultKind) : Config.exitStatus k ≠ 0 :=
  Nat.succ_ne_zero _

/-- Settles O47. -/
theorem faultsExitNonZero : Obligations.FaultsExitNonZero := fun _ =>
  ⟨fun k h => ⟨runDiagnostic_of_faulted h, Config.exitStatus k, exitStatus_ne_zero k, runExitStatus_of_faulted h⟩,
    fun h => ⟨runDiagnostic_of_halted h, runExitStatus_of_halted h⟩⟩

end Sys2Proof.Machine
end

section
/-! Proofs about loading and about running off the end of the image (spec/70_reset_and_hazards.md). -/

namespace Sys2Proof.Machine

/-! ### Loading (R190, D7) -/

/-- R31: the reset state of an image of legal length is a legal state. -/
theorem boot_inv {image : List Word} (h : image.length ≤ Config.maxWords) : (State.boot image).Inv where
  mem_wf := ofImage_wf image
  length_le := h
  pc_ge := by simp
  pc_le := by simp
  faulted_kind := by rintro _ ⟨⟩

/-- Everything a load that succeeds can do. -/
theorem load_eq_next {input : Option (List Line)} {s : State} : load input = .next s ↔
    ∃ ls image, input = some ls ∧ readImage 1 ls = .ok image ∧ image.length ≤ Config.maxWords ∧
      s = State.boot image := by
  cases input with
  | none => simp [load]
  | some ls =>
    rcases hr : readImage 1 ls with line | image
    · simp [load, hr]
    · by_cases hlen : image.length ≤ Config.maxWords
      · simp [load, hr, hlen, eq_comm]
      · simp [load, hr, hlen]

/-- Settles O38. -/
theorem loadedStatesSatisfyTheInvariant : Obligations.LoadedStatesSatisfyTheInvariant := by
  intro input s h
  obtain ⟨ls, image, -, -, hlen, rfl⟩ := load_eq_next.mp h
  exact ⟨boot_inv hlen, image, hlen, rfl⟩

/-! ### The first malformed line (R191, R192) -/

/-- Lines that are not malformed are passed over, and the malformed one after them is named by its number. -/
theorem readImage_append_malformed {good : List Line} {bad : Line}
    (hgood : ∀ l ∈ good, readImageLine l ≠ .malformed) (hbad : readImageLine bad = .malformed)
    (line : Nat) (rest : List Line) :
    readImage line (good ++ bad :: rest) = .error (line + good.length) := by
  induction good generalizing line with
  | nil => simp [readImage, hbad]
  | cons l ls ih =>
    have hrest : readImage (line + 1) (ls ++ bad :: rest) = .error (line + (l :: ls).length) := by
      rw [ih (fun l' hl' => hgood l' (List.mem_cons_of_mem l hl')), List.length_cons, Nat.add_right_comm, Nat.add_assoc]
    rw [List.cons_append, readImage, hrest]
    rcases hl : readImageLine l with _ | w | _
    · rfl
    · rfl
    · exact absurd hl (hgood l List.mem_cons_self)

/-- Settles O45. -/
theorem firstMalformedLineEndsTheLoad : Obligations.FirstMalformedLineEndsTheLoad := by
  refine ⟨rfl, fun good bad rest hgood hbad => ?_⟩
  rw [load, readImage_append_malformed hgood hbad, Nat.add_comm]

/-! ### One line of the image text (R191, D8) -/

theorem digit_range {c : Char} (h : c.isDigit = true) : '0' ≤ c ∧ c ≤ '9' := by
  simp only [Char.isDigit, Bool.and_eq_true, decide_eq_true_eq] at h
  exact h

section ImageLine
variable {l before text after : Line} {sign t : Token} {n : Int}

/-- What the three signs and any digits are made of is not white. -/
theorem signedDigits_not_white (hs : sign ∈ [[], ['+'], ['-']]) (hd : ∀ c ∈ t, c.isDigit = true) :
    ∀ c ∈ sign ++ t, isWhite c = false := by
  intro c hc
  rcases List.mem_append.mp hc with hc | hc
  · simp only [List.mem_cons, List.not_mem_nil, or_false] at hs
    rcases hs with rfl | rfl | rfl
    · exact absurd hc List.not_mem_nil
    all_goals
      obtain rfl := List.mem_singleton.mp hc
      decide
  · exact digit_not_white (hd c hc)

theorem not_white_of_parseDecimal (h : parseDecimal t = some n) : ∀ c ∈ t, isWhite c = false := by
  obtain ⟨sign, hs, digits, rfl, -, hd⟩ := parseDecimal_form h
  exact signedDigits_not_white hs hd

theorem parseDecimal_signed (hs : sign ∈ [[], ['+'], ['-']]) {k : Nat} (h : parseDigits t = some k) :
    parseDecimal (sign ++ t) = some (if sign = ['-'] then -(k : Int) else k) := by
  simp only [List.mem_cons, List.not_mem_nil, or_false] at hs
  rcases hs with rfl | rfl | rfl
  · exact parseDecimal_of_digits h
  · simp [h]
  · simp [h]

theorem readImageLine_of_trim_nil (h : trim l = []) : readImageLine l = .blank := by
  simp [readImageLine, h]

theorem readImageLine_of_decimal (htrim : trim l = text) (hne : text ≠ []) (h : parseDecimal text = some n) :
    readImageLine l = if -2147483648 ≤ n ∧ n ≤ 2147483647 then .word (wrap32 n) else .malformed := by
  simp [readImageLine, htrim, hne, h, fitsWord]

theorem readImageLine_of_not_decimal (htrim : trim l = text) (hne : text ≠ []) (h : parseDecimal text = none) :
    readImageLine l = .malformed := by
  simp [readImageLine, htrim, hne, h]

section Surrounded
variable (hb : ∀ c ∈ before, isWhite c = true) (ha : ∀ c ∈ after, isWhite c = true)
include hb ha

/-- A sign or none and digits, with whitespace around: the signed value, checked against the range of a word. -/
theorem readImageLine_signed (hs : sign ∈ [[], ['+'], ['-']]) {k : Nat} (h : parseDigits t = some k) :
    readImageLine (before ++ (sign ++ t) ++ after) =
      let value : Int := if sign = ['-'] then -(k : Int) else k
      if -2147483648 ≤ value ∧ value ≤ 2147483647 then .word (wrap32 value) else .malformed := by
  obtain ⟨hne, hd, -⟩ := parseDigits_eq_some.mp h
  have hne' : sign ++ t ≠ [] := List.append_ne_nil_of_right_ne_nil sign hne
  have hnw := signedDigits_not_white hs hd
  have htrim : trim (before ++ (sign ++ t) ++ after) = sign ++ t :=
    trim_surrounded hb ha hne' (fun c hc => hnw c (List.mem_of_mem_head? hc))
      (fun c hc => hnw c (List.mem_of_mem_getLast? hc))
  exact readImageLine_of_decimal htrim hne' (parseDecimal_signed hs h)

/-- Any other text, with whitespace around, is malformed. -/
theorem readImageLine_surrounded_malformed (hne : text ≠ []) (hh : ∀ c ∈ text.head?, isWhite c = false)
    (hl : ∀ c ∈ text.getLast?, isWhite c = false) (h : parseDecimal text = none) :
    readImageLine (before ++ text ++ after) = .malformed :=
  readImageLine_of_not_decimal (trim_surrounded hb ha hne hh hl) hne h

end Surrounded

/-- A text that no sign leaves as digits only is no decimal. -/
theorem parseDecimal_eq_none_of_form (h : ∀ sign ∈ [[], ['+'], ['-']], ∀ digits, text = sign ++ digits →
    digits = [] ∨ ∃ c ∈ digits, ¬ ('0' ≤ c ∧ c ≤ '9')) : parseDecimal text = none := by
  refine Option.eq_none_iff_forall_ne_some.mpr fun n hn => ?_
  obtain ⟨sign, hs, digits, htext, hne, hd⟩ := parseDecimal_form hn
  rcases h sign hs digits htext with hnil | ⟨c, hc, hout⟩
  · exact hne hnil
  · exact hout (digit_range (hd c hc))

theorem parseDecimal_eq_none_of_white {c : Char} (hc : c ∈ t) (hw : isWhite c = true) : parseDecimal t = none := by
  refine Option.eq_none_iff_forall_ne_some.mpr fun n hn => ?_
  rw [not_white_of_parseDecimal hn c hc] at hw
  cases hw

end ImageLine

/-- Settles O44: the text between the whitespace is what is trimmed to, and two texts apart hold a white character,
which no decimal does. -/
theorem imageLineIsOneSignedWord : Obligations.ImageLineIsOneSignedWord := by
  intro before after hb ha
  refine ⟨readImageLine_of_trim_nil (trim_of_white hb),
    fun sign hs zeros n => readImageLine_signed hb ha hs (parseDigits_zeros_toDigits zeros n),
    fun text hne hh hl h => readImageLine_surrounded_malformed hb ha hne hh hl (parseDecimal_eq_none_of_form h), ?_⟩
  intro first gap second hfirst hfw hgap hgw hsecond hsw
  obtain ⟨c, hc⟩ := List.exists_mem_of_ne_nil gap hgap
  refine readImageLine_surrounded_malformed hb ha (by simp [hfirst]) (fun d hd => ?_) (fun d hd => ?_)
    (parseDecimal_eq_none_of_white (c := c) (by simp [hc]) (hgw c hc))
  · rw [List.append_assoc, List.head?_append_of_ne_nil first hfirst] at hd
    exact hfw d (List.mem_of_mem_head? hd)
  · rw [List.getLast?_append_of_ne_nil _ hsecond] at hd
    exact hsw d (List.mem_of_mem_getLast? hd)

/-! ### Off the end of the image (R194) -/

/-- R25: but for `beq` and `jalr`, the next pc is the next word. -/
theorem retiredPc_of_sequential {i : Instr} (hbeq : ∀ a b off, i ≠ .beq a b off) (hjalr : ∀ a b, i ≠ .jalr a b)
    (s : State) : retiredPc i s = s.pc + 1 := by
  cases i with
  | beq a b off => exact absurd rfl (hbeq a b off)
  | jalr a b => exact absurd rfl (hjalr a b)
  | add | nand | lw | sw | halt | noop => rfl

/-- Settles O42: the step that does not fault retires, so the machine is Running with the pc at `N_MEM` of a memory as
long as before, where the fetch check fails. -/
theorem runningOffTheImageFaults : Obligations.RunningOffTheImageFaults := by
  intro s t w _ hw hlast hseq h hnf
  obtain ⟨hhalt, hbeq, hjalr⟩ := hseq
  obtain ⟨hs, ⟨-, rfl⟩ | ⟨w', hw', ⟨-, rfl⟩ | ⟨-, hpc, hmem, hst, -, -⟩⟩⟩ := step_cases h
  · exact absurd (isFaulted_setStatus_faulted s _) hnf
  · exact absurd (isFaulted_setStatus_faulted s _) hnf
  · obtain rfl : w' = w := Option.some.inj (hw'.symm.trans hw)
    have hend : t.pc = (s.mem.length : Int) := by rw [hpc, retiredPc_of_sequential hbeq hjalr, hlast]
    have hrunning : t.status = .running := by rw [hst, retiredStatus_of_running hs, if_neg hhalt]
    have hout : ¬ (0 ≤ t.pc ∧ t.pc < (t.mem.length : Int)) := by
      rw [hmem, retiredMem_length, hend]
      exact fun hin => lt_irrefl _ hin.2
    exact ⟨hend, fetchCheckFaults t hrunning hout⟩

end Sys2Proof.Machine
end

section
/-! Proofs about words from outside the machine: the word the host places, memories told apart by their words, and the
words the spec writes out. -/

namespace Sys2Proof.Machine

/-! ### The placed word (log 3, log 18) -/

theorem tableWord_word (w : Nat) : tableWord 32 w = BitVec.ofNat 32 w :=
  BitVec.eq_of_toNat_eq (by simp [tableWord])

theorem placeAddress_of_range {s : State} (hge : 0 ≤ s.pc) (hlt : s.pc < 2147483647) :
    (placeAddress s : Int) = s.pc := by
  have hin : 0 ≤ s.pc ∧ s.pc < (Config.maxWords : Int) := ⟨hge, hlt⟩
  rw [placeAddress, if_pos hin, Int.toNat_of_nonneg hge]

/-- Settles O11: the state with the placed word is Running and fetches that word. -/
theorem placedWordRunsNext : Obligations.PlacedWordRunsNext := by
  intro s w
  have hfetch : fetch (s.withFetchWord 32 w) = some (BitVec.ofNat 32 w) := by
    rw [State.withFetchWord, tableWord_word, fetch_placeWord]
  exact ⟨step_eq_exec_of_fetch rfl hfetch, rfl, rfl, placeAddress_of_range⟩

/-! ### Canonical memories (log 1, log 2) -/

/-- With one cell for each address, the listed value is the value read. -/
theorem cellValue_of_mem {cs : List Cell} (hp : cs.Pairwise (fun c d => c.1 < d.1)) {c : Cell} (hc : c ∈ cs) :
    cellValue c.1 cs = c.2 := by
  induction cs with
  | nil => cases hc
  | cons d ds ih =>
    obtain ⟨hd, hds⟩ := List.pairwise_cons.mp hp
    rcases List.mem_cons.mp hc with rfl | hmem
    · rw [cellValue, if_pos rfl]
    · rw [cellValue, if_neg (hd c hmem).ne, ih hds hmem]

theorem mem_of_cellValue_ne_zero {a : Nat} {cs : List Cell} (h : cellValue a cs ≠ 0#32) :
    (a, cellValue a cs) ∈ cs := by
  induction cs with
  | nil => exact absurd rfl h
  | cons d ds ih =>
    by_cases hd : d.1 = a
    · subst hd
      simp [cellValue]
    · rw [cellValue, if_neg hd] at h ⊢
      exact List.mem_cons_of_mem d (ih h)

/-- The cells of a canonical memory are its words that are not 0, each at its address. -/
theorem mem_cells_iff {m : Memory} (hm : m.wf) (c : Cell) :
    c ∈ m.cells ↔ memRead m (c.1 : Int) = some c.2 ∧ c.2 ≠ 0#32 := by
  obtain ⟨hp, hcells⟩ := hm
  refine ⟨fun hc => ?_, fun ⟨hread, hne⟩ => ?_⟩
  · obtain ⟨hne, hlt⟩ := hcells c hc
    exact ⟨memRead_eq_some.mpr ⟨(inBounds_iff _ _).mpr (by omega), cellValue_of_mem hp hc⟩, hne⟩
  · have hget : cellValue c.1 m.cells = c.2 := (memRead_eq_some.mp hread).2
    have hmem := mem_of_cellValue_ne_zero (hget.trans_ne hne)
    rwa [hget] at hmem

/-- Settles O34: the reads fix which cells are listed, and rising addresses fix their order. -/
theorem equalWordsMeanEqualMemories : Obligations.EqualWordsMeanEqualMemories := by
  intro m m' hm hm' hlen hread
  have hasymm : Std.Asymm (fun c d : Cell => c.1 < d.1) := ⟨fun _ _ => Nat.lt_asymm⟩
  have hmem : ∀ c, c ∈ m.cells ↔ c ∈ m'.cells := fun c => by
    rw [mem_cells_iff hm, mem_cells_iff hm', hread]
  have hcells : m.cells = m'.cells := hm.1.eq_of_mem_iff hm'.1 hmem
  exact congrArg₂ Memory.mk hlen hcells

/-! ### The words of the spec (spec/95_test_vectors.md) -/

/-- Settles O6: the decoder computes each of the fifteen instructions from its word. -/
theorem wordsOfTheSpecDecode : Obligations.WordsOfTheSpecDecode := by
  unfold Obligations.WordsOfTheSpecDecode
  decide

end Sys2Proof.Machine
end
